-- ==== Sys2Proof/Word.lean ====
section
/-! DEFINITION. The value types of the machine (spec 00_scope.md R8, R10, R11). Every value is unsigned. -/

namespace Sys2Proof

/-- 8 bits: a general register, a timer, a memory cell, an immediate (R8). -/
abbrev Byte := BitVec 8

/-- 16 bits: an instruction word, the program counter, the index register, a stack slot (R8). -/
abbrev Word := BitVec 16

/-- A general register's number, 0..15 (10_state.md R20). -/
abbrev Reg := Fin 16

/-- `VF`, the register that is also the flag register (10_state.md R22). -/
abbrev VF : Reg := 15

end Sys2Proof
end

