-- ==== Sys2Proof/Syntax.lean ====
section
/-! DEFINITION. The instructions: one constructor per row of spec/opcode_table.json, in the table's order,
and the results of decoding (spec 30_encoding.md R81, R83, R97). -/

namespace Sys2Proof

/-- The 34 instructions (R97). `x` and `y` are register numbers, `kk` an 8-bit immediate, `nnn` a 12-bit address,
`n` a row count, which `Instr.wellFormed` bounds by 15 (R84). Bits an instruction ignores (R95) are no operand. -/
inductive Instr where
  | cls
  | ret
  | jp (nnn : BitVec 12)
  | call (nnn : BitVec 12)
  | seImm (x : Reg) (kk : Byte)
  | sneImm (x : Reg) (kk : Byte)
  | seReg (x y : Reg)
  | ldImm (x : Reg) (kk : Byte)
  | addImm (x : Reg) (kk : Byte)
  | ldReg (x y : Reg)
  | orReg (x y : Reg)
  | andReg (x y : Reg)
  | xorReg (x y : Reg)
  | addReg (x y : Reg)
  | sub (x y : Reg)
  | shr (x y : Reg)
  | subn (x y : Reg)
  | shl (x y : Reg)
  | sneReg (x y : Reg)
  | ldI (nnn : BitVec 12)
  | jpV0 (nnn : BitVec 12)
  | rnd (x : Reg) (kk : Byte)
  | drw (x y : Reg) (n : Nat)
  | skp (x : Reg)
  | sknp (x : Reg)
  | ldVxDt (x : Reg)
  | ldVxK (x : Reg)
  | ldDtVx (x : Reg)
  | ldStVx (x : Reg)
  | addI (x : Reg)
  | ldF (x : Reg)
  | ldB (x : Reg)
  | ldIVx (x : Reg)
  | ldVxI (x : Reg)
  deriving DecidableEq, Repr

/-- Why a word selects no instruction: its secondary key has no handler in its family (R86 to R89, R94).
Such a word is no error: it executes as a no-op (R93, 40_cycle.md R114). -/
inductive Unmapped where
  | systemKey (kk : Byte)      -- family 0x0, low byte not 0xE0 or 0xEE
  | aluKey (n : BitVec 4)      -- family 0x8, low nibble 0x8..0xD or 0xF
  | keySkipKey (kk : Byte)     -- family 0xE, low byte not 0x9E or 0xA1
  | miscKey (kk : Byte)        -- family 0xF, low byte not one of the nine of R89
  deriving DecidableEq, Repr

/-- What one instruction word decodes to (R91). -/
inductive Decoded where
  | insn (i : Instr)
  | unmapped (u : Unmapped)
  deriving DecidableEq, Repr

/-- What a byte string decodes to: the instruction and the bytes after it, or a rejection by name. -/
inductive DecodedBytes where
  | insn (i : Instr) (rest : List Byte)
  | unmapped (u : Unmapped) (rest : List Byte)
  | truncated                  -- fewer than the two bytes every instruction has (R80)
  deriving DecidableEq, Repr

end Sys2Proof
end

