-- ==== Sys2Proof/Decode.lean ====
section
/-! DEFINITION. Instruction words: their fields, the decoder of spec 30_encoding.md R91, the encoder written from the
same tables (R83, R86 to R89, R98), and the byte forms (R54, R80). The key values are the canonical CHIP-8 table,
which the spec marks as general knowledge: PRESUMED, unsafe, log entry 13. -/

namespace Sys2Proof

/-! ## Fields (R81) -/

/-- `op`, bits 15..12: the family. -/
def fieldOp (w : Word) : BitVec 4 := w.extractLsb' 12 4

/-- `x`, bits 11..8. -/
def fieldX (w : Word) : Reg := (w.extractLsb' 8 4).toFin

/-- `y`, bits 7..4. -/
def fieldY (w : Word) : Reg := (w.extractLsb' 4 4).toFin

/-- `n`, bits 3..0. -/
def fieldN (w : Word) : BitVec 4 := w.extractLsb' 0 4

/-- `kk`, bits 7..0. -/
def fieldKK (w : Word) : Byte := w.extractLsb' 0 8

/-- `nnn`, bits 11..0. -/
def fieldNNN (w : Word) : BitVec 12 := w.extractLsb' 0 12

/-! ## Secondary dispatch -/

/-- Family 0x0, on the low byte; bits 11..8 are ignored (R86). -/
def decodeSystem (kk : Byte) : Decoded :=
  match kk with
  | 0xE0#8 => .insn .cls
  | 0xEE#8 => .insn .ret
  | _ => .unmapped (.systemKey kk)

/-- Family 0x8, on the low nibble (R87). -/
def decodeAlu (x y : Reg) (n : BitVec 4) : Decoded :=
  match n with
  | 0x0#4 => .insn (.ldReg x y)
  | 0x1#4 => .insn (.orReg x y)
  | 0x2#4 => .insn (.andReg x y)
  | 0x3#4 => .insn (.xorReg x y)
  | 0x4#4 => .insn (.addReg x y)
  | 0x5#4 => .insn (.sub x y)
  | 0x6#4 => .insn (.shr x y)
  | 0x7#4 => .insn (.subn x y)
  | 0xE#4 => .insn (.shl x y)
  | _ => .unmapped (.aluKey n)

/-- Family 0xE, on the low byte (R88). -/
def decodeKeySkip (x : Reg) (kk : Byte) : Decoded :=
  match kk with
  | 0x9E#8 => .insn (.skp x)
  | 0xA1#8 => .insn (.sknp x)
  | _ => .unmapped (.keySkipKey kk)

/-- Family 0xF, on the low byte (R89). -/
def decodeMisc (x : Reg) (kk : Byte) : Decoded :=
  match kk with
  | 0x07#8 => .insn (.ldVxDt x)
  | 0x0A#8 => .insn (.ldVxK x)
  | 0x15#8 => .insn (.ldDtVx x)
  | 0x18#8 => .insn (.ldStVx x)
  | 0x1E#8 => .insn (.addI x)
  | 0x29#8 => .insn (.ldF x)
  | 0x33#8 => .insn (.ldB x)
  | 0x55#8 => .insn (.ldIVx x)
  | 0x65#8 => .insn (.ldVxI x)
  | _ => .unmapped (.miscKey kk)

/-- The complete decode function (R85, R90, R91): total on all 65536 words, a pure function of the word (40_cycle.md R112). -/
def decodeWord (w : Word) : Decoded :=
  match fieldOp w with
  | 0x0#4 => decodeSystem (fieldKK w)
  | 0x1#4 => .insn (.jp (fieldNNN w))
  | 0x2#4 => .insn (.call (fieldNNN w))
  | 0x3#4 => .insn (.seImm (fieldX w) (fieldKK w))
  | 0x4#4 => .insn (.sneImm (fieldX w) (fieldKK w))
  | 0x5#4 => .insn (.seReg (fieldX w) (fieldY w))
  | 0x6#4 => .insn (.ldImm (fieldX w) (fieldKK w))
  | 0x7#4 => .insn (.addImm (fieldX w) (fieldKK w))
  | 0x8#4 => decodeAlu (fieldX w) (fieldY w) (fieldN w)
  | 0x9#4 => .insn (.sneReg (fieldX w) (fieldY w))
  | 0xA#4 => .insn (.ldI (fieldNNN w))
  | 0xB#4 => .insn (.jpV0 (fieldNNN w))
  | 0xC#4 => .insn (.rnd (fieldX w) (fieldKK w))
  | 0xD#4 => .insn (.drw (fieldX w) (fieldY w) (fieldN w).toNat)
  | 0xE#4 => decodeKeySkip (fieldX w) (fieldKK w)
  | _ => decodeMisc (fieldX w) (fieldKK w)    -- 0xF, the only nibble left

/-! ## Bytes: high byte first (R54, R80) -/

/-- `w[15:8]` is the first byte, `w[7:0]` the second (20_memory.md R54). -/
def wordOfBytes (hi lo : Byte) : Word := hi ++ lo

/-- The two bytes of a word as memory holds them, the lower address first. -/
def bytesOfWord (w : Word) : List Byte := [w.extractLsb' 8 8, w.extractLsb' 0 8]

/-- Decode the instruction at the head of a byte string. -/
def decode : List Byte → DecodedBytes
  | hi :: lo :: rest =>
    match decodeWord (wordOfBytes hi lo) with
    | .insn i => .insn i rest
    | .unmapped u => .unmapped u rest
  | [_] => .truncated
  | [] => .truncated

/-! ## Encoding (R83, R98: ignored bits are written as 0) -/

/-- A register number as its 4-bit field. -/
def regBits (r : Reg) : BitVec 4 := BitVec.ofFin r

/-- Format A: `oooo aaaa aaaa aaaa`. -/
def formA (op : BitVec 4) (nnn : BitVec 12) : Word := op ++ nnn

/-- Formats XK, X and Z: `oooo xxxx kkkk kkkk`, where X and Z fix `kkkk kkkk`. -/
def formXK (op : BitVec 4) (x : Reg) (kk : Byte) : Word := (op ++ regBits x : BitVec 8) ++ kk

/-- Formats XY and XYN: `oooo xxxx yyyy ssss`. -/
def formXY (op : BitVec 4) (x y : Reg) (n : BitVec 4) : Word :=
  (op ++ regBits x : BitVec 8) ++ (regBits y ++ n : BitVec 8)

/-- The word of an instruction. -/
def encodeWord : Instr → Word
  | .cls => formXK 0x0 0 0xE0
  | .ret => formXK 0x0 0 0xEE
  | .jp nnn => formA 0x1 nnn
  | .call nnn => formA 0x2 nnn
  | .seImm x kk => formXK 0x3 x kk
  | .sneImm x kk => formXK 0x4 x kk
  | .seReg x y => formXY 0x5 x y 0x0
  | .ldImm x kk => formXK 0x6 x kk
  | .addImm x kk => formXK 0x7 x kk
  | .ldReg x y => formXY 0x8 x y 0x0
  | .orReg x y => formXY 0x8 x y 0x1
  | .andReg x y => formXY 0x8 x y 0x2
  | .xorReg x y => formXY 0x8 x y 0x3
  | .addReg x y => formXY 0x8 x y 0x4
  | .sub x y => formXY 0x8 x y 0x5
  | .shr x y => formXY 0x8 x y 0x6
  | .subn x y => formXY 0x8 x y 0x7
  | .shl x y => formXY 0x8 x y 0xE
  | .sneReg x y => formXY 0x9 x y 0x0
  | .ldI nnn => formA 0xA nnn
  | .jpV0 nnn => formA 0xB nnn
  | .rnd x kk => formXK 0xC x kk
  | .drw x y n => formXY 0xD x y (BitVec.ofNat 4 n)
  | .skp x => formXK 0xE x 0x9E
  | .sknp x => formXK 0xE x 0xA1
  | .ldVxDt x => formXK 0xF x 0x07
  | .ldVxK x => formXK 0xF x 0x0A
  | .ldDtVx x => formXK 0xF x 0x15
  | .ldStVx x => formXK 0xF x 0x18
  | .addI x => formXK 0xF x 0x1E
  | .ldF x => formXK 0xF x 0x29
  | .ldB x => formXK 0xF x 0x33
  | .ldIVx x => formXK 0xF x 0x55
  | .ldVxI x => formXK 0xF x 0x65

/-- The bytes of an instruction, as memory holds them. -/
def encode (i : Instr) : List Byte := bytesOfWord (encodeWord i)

/-! ## The opcode table's fixed bits (spec/opcode_table.json, the columns mask and match) -/

/-- Which bits of its word an instruction's row fixes. -/
def rowMask : Instr → Word
  | .cls => 0xF0FF
  | .ret => 0xF0FF
  | .jp _ => 0xF000
  | .call _ => 0xF000
  | .seImm _ _ => 0xF000
  | .sneImm _ _ => 0xF000
  | .seReg _ _ => 0xF000
  | .ldImm _ _ => 0xF000
  | .addImm _ _ => 0xF000
  | .ldReg _ _ => 0xF00F
  | .orReg _ _ => 0xF00F
  | .andReg _ _ => 0xF00F
  | .xorReg _ _ => 0xF00F
  | .addReg _ _ => 0xF00F
  | .sub _ _ => 0xF00F
  | .shr _ _ => 0xF00F
  | .subn _ _ => 0xF00F
  | .shl _ _ => 0xF00F
  | .sneReg _ _ => 0xF000
  | .ldI _ => 0xF000
  | .jpV0 _ => 0xF000
  | .rnd _ _ => 0xF000
  | .drw _ _ _ => 0xF000
  | .skp _ => 0xF0FF
  | .sknp _ => 0xF0FF
  | .ldVxDt _ => 0xF0FF
  | .ldVxK _ => 0xF0FF
  | .ldDtVx _ => 0xF0FF
  | .ldStVx _ => 0xF0FF
  | .addI _ => 0xF0FF
  | .ldF _ => 0xF0FF
  | .ldB _ => 0xF0FF
  | .ldIVx _ => 0xF0FF
  | .ldVxI _ => 0xF0FF

/-- What its row fixes them to. -/
def rowMatch : Instr → Word
  | .cls => 0x00E0
  | .ret => 0x00EE
  | .jp _ => 0x1000
  | .call _ => 0x2000
  | .seImm _ _ => 0x3000
  | .sneImm _ _ => 0x4000
  | .seReg _ _ => 0x5000
  | .ldImm _ _ => 0x6000
  | .addImm _ _ => 0x7000
  | .ldReg _ _ => 0x8000
  | .orReg _ _ => 0x8001
  | .andReg _ _ => 0x8002
  | .xorReg _ _ => 0x8003
  | .addReg _ _ => 0x8004
  | .sub _ _ => 0x8005
  | .shr _ _ => 0x8006
  | .subn _ _ => 0x8007
  | .shl _ _ => 0x800E
  | .sneReg _ _ => 0x9000
  | .ldI _ => 0xA000
  | .jpV0 _ => 0xB000
  | .rnd _ _ => 0xC000
  | .drw _ _ _ => 0xD000
  | .skp _ => 0xE09E
  | .sknp _ => 0xE0A1
  | .ldVxDt _ => 0xF007
  | .ldVxK _ => 0xF00A
  | .ldDtVx _ => 0xF015
  | .ldStVx _ => 0xF018
  | .addI _ => 0xF01E
  | .ldF _ => 0xF029
  | .ldB _ => 0xF033
  | .ldIVx _ => 0xF055
  | .ldVxI _ => 0xF065

/-! ## The table's numbering of bits -/

/-- The instruction word of a table row: its first word, which the table numbers from bit 0 and which is the whole
instruction (R80). Bits at or above `nbits` are 0. -/
def tableWord (nbits w : Nat) : Word := BitVec.ofNat 16 (w % 2 ^ nbits)

/-- The instruction this decoder reads from a table row's word laid out as memory holds it. -/
def decodeTableWord (nbits w : Nat) : Option Instr :=
  match decode (bytesOfWord (tableWord nbits w)) with
  | .insn i _ => some i
  | .unmapped _ _ => none
  | .truncated => none

end Sys2Proof
end

