-- ==== Sys2Proof/Config.lean ====
section
/-! DEFINITION. The configuration parameters of spec 00_scope.md R9 with their defaults, and the values
the spec leaves free. -/

namespace Sys2Proof

/-- `OOB_POLICY`: what an out-of-range memory address or key index does (R9; 20_memory.md R55, R59). -/
inductive OobPolicy where
  | wrap
  | fault
  deriving DecidableEq, Repr

/-- `SHIFT_SOURCE`: which register `SHR` and `SHL` shift (R9; 42_arithmetic.md R159, R161). -/
inductive ShiftSource where
  | vx
  | vy
  deriving DecidableEq, Repr

/-- `RESET_REGS`: what the registers the source gives no reset value hold after reset (R9; 10_state.md R47). -/
inductive ResetRegs where
  | zero
  | unspecified
  deriving DecidableEq, Repr

/-- `FONT`: 16 glyphs of 5 bytes, one byte a row, top row first (10_state.md R40). -/
abbrev Font := Vector (Vector Byte 5) 16

/-- The four parameters of R9: "No other configuration surface exists at the core boundary." -/
structure Config where
  oobPolicy   : OobPolicy
  shiftSource : ShiftSource
  font        : Font
  resetRegs   : ResetRegs
  deriving DecidableEq, Repr

/-- The conventional font, the default of `FONT` (10_state.md R41). PRESUMED by the spec (its passage G2);
unsafe: log entry 10. -/
def Config.conventionalFont : Font := #v[
  #v[0xF0, 0x90, 0x90, 0x90, 0xF0], #v[0x20, 0x60, 0x20, 0x20, 0x70],
  #v[0xF0, 0x10, 0xF0, 0x80, 0xF0], #v[0xF0, 0x10, 0xF0, 0x10, 0xF0],
  #v[0x90, 0x90, 0xF0, 0x10, 0x10], #v[0xF0, 0x80, 0xF0, 0x10, 0xF0],
  #v[0xF0, 0x80, 0xF0, 0x90, 0xF0], #v[0xF0, 0x10, 0x20, 0x40, 0x40],
  #v[0xF0, 0x90, 0xF0, 0x90, 0xF0], #v[0xF0, 0x90, 0xF0, 0x10, 0xF0],
  #v[0xF0, 0x90, 0xF0, 0x90, 0x90], #v[0xE0, 0x90, 0xE0, 0x90, 0xE0],
  #v[0xF0, 0x80, 0x80, 0x80, 0xF0], #v[0xE0, 0x90, 0x90, 0x90, 0xE0],
  #v[0xF0, 0x80, 0xF0, 0x80, 0xF0], #v[0xF0, 0x80, 0xF0, 0x80, 0x80]]

/-- The defaults of R9: what a model takes "when it claims to model this spec as written". -/
def Config.spec : Config :=
  { oobPolicy := .wrap, shiftSource := .vx, font := Config.conventionalFont, resetRegs := .zero }

/-- The byte `Rand8()` gives at the `k`-th draw from a generator: an unconstrained byte (43_addressing_random.md R182,
60_exceptions.md R253: "A model treats each byte as an unconstrained draw"). The first argument is the generator, one for each
instance (R256), so nothing relates the bytes of two instances. A FREE VALUE: it has no body. Log entries 3 and 20. -/
opaque Config.rand8 : Nat → Nat → BitVec 8

/-- `V[i]` after a reset under `RESET_REGS = unspecified` (10_state.md R47: "an arbitrary value at reset (a draw)").
The first argument tells the instances apart, by the generator each owns (R256), and the second the resets of one instance, here and
in the four below. A FREE VALUE. Log entries 6 and 20. -/
opaque Config.resetV : Nat → Nat → Fin 16 → BitVec 8

/-- `I` after such a reset (R47). A FREE VALUE. Log entries 6 and 20. -/
opaque Config.resetI : Nat → Nat → BitVec 16

/-- `DT` after such a reset (R47). A FREE VALUE. Log entries 6 and 20. -/
opaque Config.resetDT : Nat → Nat → BitVec 8

/-- `ST` after such a reset (R47). A FREE VALUE. Log entries 6 and 20. -/
opaque Config.resetST : Nat → Nat → BitVec 8

/-- Row `py` of `DISP` after such a reset (R47). A FREE VALUE. Log entries 6 and 20. -/
opaque Config.resetRow : Nat → Nat → Fin 32 → BitVec 64

end Sys2Proof
end

