-- ==== Sys2Proof/Machine/State.lean ====
section
/-! DEFINITION. The machine state: everything the spec gives the machine (spec 10_state.md), as plain data, and the
state after reset (10_state.md R47). -/

namespace Sys2Proof.Machine

/-- Memory, 4096 cells (20_memory.md R50), as the list of the cells that differ from reset memory, addresses rising.
What an unlisted cell reads as is `Memory.baseline`; the canonical form is `Memory.wf` (both in Machine/Ops.lean). -/
abbrev Memory := List Host.Cell

/-- The display: `DISP[px][py]` is bit `px` of row `py`, 64 columns and 32 rows (10_state.md R38). -/
abbrev Display := Vector (BitVec 64) 32

/-- What an out-of-range access was to (60_exceptions.md R243). -/
inductive Space where
  | mem
  | key
  deriving DecidableEq, Repr

/-- A report event and what it carries (60_exceptions.md R245, R246). -/
inductive Report where
  | stackOverflow
  | stackUnderflow
  | boundsFault (space : Space) (a : Nat)
  deriving DecidableEq, Repr

/-- The event's number: 1, 2, 3 (60_exceptions.md R245). -/
def Report.code : Report → Nat
  | .stackOverflow => 1
  | .stackUnderflow => 2
  | .boundsFault _ _ => 3

/-- Why the machine stops. -/
inductive Fault where
  /-- Raised by `step` alone, at a cycle begun with `FAULTED = 1` (40_cycle.md R117: such a cycle changes nothing, and
  "A model should treat a faulted state as a fault outcome"). Safe: log entry 2. -/
  | coreFaulted
  deriving DecidableEq, Repr

/-- Why an instruction has no meaning. -/
inductive Refusal where
  /-- Raised by an arm of `exec` whose instruction has no meaning yet; no arm of this model does. Safe. -/
  | notModelled (mnemonic : String)
  deriving DecidableEq, Repr

/-- The machine state between cycles (and, within one, between its parts). -/
structure State where
  /-- `V0..VF` (10_state.md R20). -/
  v       : Vector Byte 16
  /-- `I`, the index register (R28). -/
  index   : Word
  /-- The program counter (R24). -/
  pc      : Word
  /-- `SP`, the number of return addresses held, 0..16 (R31). -/
  sp      : Fin 17
  /-- `STACK[0..15]` (R30). -/
  stack   : Vector Word 16
  /-- The delay timer (R34). -/
  dt      : Byte
  /-- The sound timer (R34). -/
  st      : Byte
  /-- `DISP` (R38). -/
  disp    : Display
  /-- `KEY[0..15]`, true while down; written by the host only (R39). -/
  keys    : Vector Bool 16
  /-- `M` (20_memory.md R50). -/
  mem     : Memory
  /-- `FAULTED` (R44). -/
  faulted : Bool
  /-- The parameters (00_scope.md R9), which no step changes. The model's own field: log entry 1. -/
  cfg     : Config
  /-- How many bytes the random source has given (R43). The model's own field: log entry 3. -/
  draws   : Nat
  /-- The random generator this instance owns, as a name that tells it from the other instances' (60_exceptions.md R256: each instance
  has "its own random generator"). No instruction reads it but through the bytes of `RND`. The model's own field: log entry 20. -/
  generator : Nat
  /-- The events reported so far, oldest first (60_exceptions.md R246). The model's own field: log entry 4. -/
  reports : List Report
  deriving DecidableEq, Repr

/-- How a cycle, or an instruction, ends. -/
abbrev Result := Host.Outcome State Fault Refusal

/-- The state after reset with the default parameters and no ROM loaded (10_state.md R47, 70_reset_and_hazards.md R270).
Memory (zero but for the font) and `pc` are the source's; the other values are the spec's decision D11: log entry 5. -/
def State.reset : State where
  v       := Vector.replicate 16 0
  index   := 0
  pc      := 0x200
  sp      := 0
  stack   := Vector.replicate 16 0
  dt      := 0
  st      := 0
  disp    := Vector.replicate 32 0
  keys    := Vector.replicate 16 false
  mem     := []
  faulted := false
  cfg     := Config.spec
  draws   := 0
  generator := 0
  reports := []

end Sys2Proof.Machine
end

