-- ==== Sys2Proof/Machine/Ops.lean ====
section
/-! DEFINITION. The shared operations over the state: registers, program counter, stack, memory, key matrix, display,
random source, reports, and the ways an error condition is taken (spec files 10, 20, 60). -/

namespace Sys2Proof.Machine

/-! ## General registers (10_state.md R20, R21) -/

def State.getV (s : State) (r : Reg) : Byte := s.v[r]

def State.setV (s : State) (r : Reg) (b : Byte) : State := { s with v := s.v.set r b }

/-! ## Index register, timers -/

/-- `I <- w` (10_state.md R28, R29). -/
def State.setIndex (s : State) (w : Word) : State := { s with index := w }

/-- `DT <- b` (10_state.md R35). -/
def State.setDT (s : State) (b : Byte) : State := { s with dt := b }

/-- `ST <- b` (10_state.md R36). -/
def State.setST (s : State) (b : Byte) : State := { s with st := b }

/-! ## Program counter: all its arithmetic is `mod 65536` (10_state.md R26) -/

/-- `pc <- target`. -/
def State.jump (s : State) (target : Word) : State := { s with pc := target }

/-- `pc <- pc + 2`: the fetch's advance (40_cycle.md R111) and the taken skip's (41_control_flow.md R130). -/
def State.advance (s : State) : State := { s with pc := s.pc + 2 }

/-- `pc <- pc - 2`: the key wait's rewind (45_input.md R202), and the undoing of a fetch's advance. -/
def State.rewind (s : State) : State := { s with pc := s.pc - 2 }

/-- `if c: Skip()` (41_control_flow.md R130). -/
def State.skipIf (s : State) (c : Bool) : State := if c then s.advance else s

/-! ## Stack (10_state.md R30 to R33) -/

/-- `STACK[SP] <- w; SP <- SP + 1`, or `none` when `SP = 16` (R32). -/
def State.push (s : State) (w : Word) : Option State :=
  if h : s.sp.val < 16 then
    some { s with stack := s.stack.set s.sp.val w, sp := ⟨s.sp.val + 1, by omega⟩ }
  else none

/-- `SP <- SP - 1` and the word then at `STACK[SP]`, or `none` when `SP = 0` (R32); the slot keeps its contents (R33). -/
def State.pop (s : State) : Option (Word × State) :=
  if h : 0 < s.sp.val then
    some (s.stack[s.sp.val - 1], { s with sp := ⟨s.sp.val - 1, by omega⟩ })
  else none

/-! ## Memory (20_memory.md) -/

/-- `MEM_SIZE` (00_scope.md R8). -/
abbrev memSize : Nat := 4096

/-- `FONT_BASE` (00_scope.md R8). -/
abbrev fontBase : Nat := 0x50

/-- `LOAD_ADDR` (00_scope.md R8). -/
abbrev loadAddr : Nat := 0x200

/-- Byte `k` of a font, 0 <= k < 80: row `k mod 5` of glyph `k / 5` (10_state.md R40). -/
def fontByte (f : Font) (k : Nat) : Byte := (f[k / 5]?.bind fun g => g[k % 5]?).getD 0

/-- What a cell no store has changed reads as: reset memory, the default font at 0x050..0x09F and zero elsewhere
(10_state.md R47, 20_memory.md R52). -/
def Memory.baseline (a : Nat) : Byte :=
  if fontBase ≤ a ∧ a < fontBase + 80 then fontByte Config.conventionalFont (a - fontBase) else 0

/-- The canonical form: addresses strictly rising, inside memory, no entry equal to the baseline. -/
abbrev Memory.wf (m : Memory) : Prop :=
  m.Pairwise (fun c d => c.1 < d.1) ∧ ∀ c ∈ m, c.1 < memSize ∧ c.2 ≠ Memory.baseline c.1

/-- `M[a]`. -/
def Memory.read (m : Memory) (a : Nat) : Byte :=
  match m with
  | [] => Memory.baseline a
  | (k, b) :: rest => if k = a then b else Memory.read rest a

/-- The cell put in front of a list of higher addresses, left out where it equals the baseline. -/
def Memory.cons (a : Nat) (b : Byte) (m : Memory) : Memory :=
  if b = Memory.baseline a then m else (a, b) :: m

/-- `M[a] <- b`, keeping the canonical form. -/
def Memory.write (m : Memory) (a : Nat) (b : Byte) : Memory :=
  match m with
  | [] => Memory.cons a b []
  | (k, c) :: rest =>
    if a < k then Memory.cons a b ((k, c) :: rest)
    else if a = k then Memory.cons a b rest
    else (k, c) :: Memory.write rest a b

/-- `Addr(a)` once the bounds policy has let `a` pass: `a` itself below 4096, `a mod 4096` under `wrap`
(20_memory.md R55). -/
def cellOf (a : Nat) : Nat := a % memSize

/-- Bytes to the addresses `a, a + 1, ...`, in increasing order (20_memory.md R57, R63). -/
def Memory.writeFrom (m : Memory) (a : Nat) : List Byte → Memory
  | [] => m
  | b :: bs => Memory.writeFrom (Memory.write m (cellOf a) b) (a + 1) bs

/-- `MemRead(a, 1)` past the bounds check (20_memory.md R56). -/
def State.memRead (s : State) (a : Nat) : Byte := s.mem.read (cellOf a)

/-- `MemRead` at `a, a + 1, ..., a + n - 1`, in increasing order (20_memory.md R58, R63). -/
def State.memReadList (s : State) (a n : Nat) : List Byte := (List.range n).map fun k => s.memRead (a + k)

/-- `MemWrite` of bytes at `a, a + 1, ...` past the bounds check (20_memory.md R57, R58). -/
def State.memWriteList (s : State) (a : Nat) (bs : List Byte) : State := { s with mem := s.mem.writeFrom a bs }

/-! ## The bounds policy (20_memory.md R55, R59, R60) -/

/-- The lowest of `a, ..., a + n - 1` at or past the end of memory, where the policy is `fault`; under `wrap`
nothing is checked (R60, 60_exceptions.md R243). -/
def memOutOfRange (p : OobPolicy) (a n : Nat) : Option Nat :=
  match p with
  | .wrap => none
  | .fault => ((List.range n).map (a + ·)).find? fun b => decide (memSize ≤ b)

/-- The key index, where it is 16 or more and the policy is `fault` (R59). -/
def keyOutOfRange (p : OobPolicy) (k : Nat) : Option Nat :=
  match p with
  | .wrap => none
  | .fault => if k < 16 then none else some k

/-- `KeyDown(k)` past the bounds check: `KEY[k]` below 16, `KEY[k mod 16]` under `wrap` (R59). -/
def State.keyDown (s : State) (k : Nat) : Bool := s.keys[Fin.ofNat 16 k]

/-- The smallest `k` in 0..15 with `KEY[k] = true` (45_input.md R202). -/
def State.lowestKeyDown (s : State) : Option Reg := (List.finRange 16).find? fun k => s.keys[k]

/-! ## Display (10_state.md R38) -/

/-- `DISP[px][py]`. -/
def Display.pixel (d : Display) (px : Fin 64) (py : Fin 32) : Bool := d[py].getLsbD px

/-- `DISP[px][py] <- DISP[px][py] ^ 1`. -/
def Display.flip (d : Display) (px : Fin 64) (py : Fin 32) : Display := d.set py (d[py] ^^^ (1#64 <<< px.val))

/-- Draw pixels one after another, each by XOR, and note whether one that was on was turned off (44_drawing.md R190). -/
def drawPixels (d : Display) (hit : Bool) : List (Fin 64 × Fin 32) → Display × Bool
  | [] => (d, hit)
  | (px, py) :: rest => drawPixels (Display.flip d px py) (hit || Display.pixel d px py) rest

/-- Every pixel 0. -/
def Display.clear : Display := Vector.replicate 32 0

def State.setDisp (s : State) (d : Display) : State := { s with disp := d }

/-! ## Random source (43_addressing_random.md R182, 60_exceptions.md R253) -/

/-- `Rand8()`: the next byte of this instance's own generator (R253, R256), and the state with that byte drawn. -/
def State.rand8 (s : State) : Byte × State := (Config.rand8 s.generator s.draws, { s with draws := s.draws + 1 })

/-! ## Error conditions (60_exceptions.md)

There is no vector, no saved register and no return from an error (R240, R248, R249), so no operation for one. -/

/-- `report(kind)`: one event, no architectural effect (R246). -/
def State.report (s : State) (r : Report) : State := { s with reports := s.reports ++ [r] }

/-- The recovery of a stack overflow or underflow: `report`, then `pc <- 0`, nothing else (R241, R242, R248). -/
def recoverStack (r : Report) (s : State) : Result := .next ((s.report r).jump 0)

/-- The effect of a `BoundsFault` on the state at the start of the cycle: `FAULTED <- 1` and the report (R243). -/
def State.raiseBounds (s0 : State) (space : Space) (a : Nat) : State :=
  { s0 with faulted := true }.report (.boundsFault space a)

/-- A handler's `BoundsFault`. The handler has written nothing yet (20_memory.md R60), so the state at the start of the
cycle is the handler's with the fetch's advance undone (R243: "the pc advance of the fetch is undone"). DEDUCED; safe: log entry 12. -/
def takeBoundsFault (space : Space) (a : Nat) (s : State) : Result := .next (s.rewind.raiseBounds space a)

/-- A handler checked before it changes anything: the fault if an index it will use is out of range, else its effect
(20_memory.md R60). -/
def checked (oob : Option Nat) (space : Space) (s : State) (effect : State) : Result :=
  match oob with
  | some a => takeBoundsFault space a s
  | none => .next effect

/-- A handler that accesses memory at `I, ..., I + n - 1`. -/
def checkedMem (n : Nat) (s : State) (effect : State) : Result :=
  checked (memOutOfRange s.cfg.oobPolicy s.index.toNat n) .mem s effect

/-- A handler that reads key `k`. -/
def checkedKey (k : Nat) (s : State) (effect : State) : Result :=
  checked (keyOutOfRange s.cfg.oobPolicy k) .key s effect

end Sys2Proof.Machine
end

