-- ==== Sys2Proof/Machine/Operands.lean ====
section
/-! DEFINITION. The operand forms: how an instruction's fields become values and addresses (spec 30_encoding.md R84 and
the operand lines of files 41 to 47). -/

namespace Sys2Proof.Machine

/-- `zext_16(nnn)` (R84). -/
def zext16 (nnn : BitVec 12) : Word := nnn.setWidth 16

/-- `zext_16(nnn) + V[0]` (41_control_flow.md R138): the index is always `V0`. -/
def indexedTarget (s : State) (nnn : BitVec 12) : Word := zext16 nnn + (s.getV 0).setWidth 16

/-- `I + V[x]`, `mod 65536` (43_addressing_random.md R181). -/
def indexPlus (s : State) (x : Reg) : Word := s.index + (s.getV x).setWidth 16

/-- `0x50 + 5 * V[x]`, the whole value (47_memory_transfer.md R223). -/
def glyphAddr (s : State) (x : Reg) : Word := BitVec.ofNat 16 (fontBase + 5 * (s.getV x).toNat)

/-- The value `SHR` and `SHL` shift, by `SHIFT_SOURCE` (42_arithmetic.md R159, R161). -/
def shiftOperand (s : State) (x y : Reg) : Byte :=
  match s.cfg.shiftSource with
  | .vx => s.getV x
  | .vy => s.getV y

/-- The three decimal digits of a byte, hundreds first (47_memory_transfer.md R220). -/
def bcdDigits (b : Byte) : List Byte :=
  [BitVec.ofNat 8 (b.toNat / 100), BitVec.ofNat 8 (b.toNat / 10 % 10), BitVec.ofNat 8 (b.toNat % 10)]

/-- `V0..Vx`, inclusive (47_memory_transfer.md R221). -/
def registersUpTo (s : State) (x : Reg) : List Byte := s.v.toList.take (x.val + 1)

/-- The registers after `V[i] <- MemRead(I + i, 1)` for `i` in `0..x` (47_memory_transfer.md R222). The loads do not
meet one another, so they are written as one value (20_memory.md R63); DEDUCED, safe: log entry 18. -/
def registersLoaded (s : State) (x : Reg) : Vector Byte 16 :=
  Vector.ofFn fun i => if i ≤ x then s.memRead (s.index.toNat + i.val) else s.v[i]

/-- The pixels a sprite row's set bits fall on, from the left: bit 7 is the leftmost, and the column wraps
(44_drawing.md R190). -/
def spriteRowPixels (bx : Nat) (row : Byte) (py : Fin 32) : List (Fin 64 × Fin 32) :=
  (List.range 8).filterMap fun c => if row.getLsbD (7 - c) then some (Fin.ofNat 64 (bx + c), py) else none

/-- The pixels a sprite's set bits fall on, row by row from row `by`, which wraps (44_drawing.md R190). -/
def spritePixels (bx : Nat) (by_ : Nat) : List Byte → List (Fin 64 × Fin 32)
  | [] => []
  | row :: rows => spriteRowPixels bx row (Fin.ofNat 32 by_) ++ spritePixels bx (by_ + 1) rows

/-- The pixels of `DRW Vx, Vy, n`: base column `V[x] mod 64`, base row `V[y] mod 32`, rows at `I, ..., I + n - 1`
(44_drawing.md R190). -/
def drwPixels (s : State) (x y : Reg) (n : Nat) : List (Fin 64 × Fin 32) :=
  spritePixels ((s.getV x).toNat % 64) ((s.getV y).toNat % 32) (s.memReadList s.index.toNat n)

end Sys2Proof.Machine
end

