-- ==== Sys2Proof/Machine/Flags.lean ====
section
/-! DEFINITION. The flag computations, each a 0 or 1 for `VF` (spec 42_arithmetic.md R150, R157 to R162),
and the write of a result with its flag. -/

namespace Sys2Proof.Machine

/-- 1 if the condition holds, else 0. -/
def flagOf (c : Bool) : Byte := if c then 1 else 0

/-- Carry: 1 iff `a + b > 255` (R157). -/
def carryFlag (a b : Byte) : Byte := flagOf (decide (a.toNat + b.toNat > 255))

/-- Not-borrow: 1 iff minuend >= subtrahend (R158, R160). -/
def notBorrowFlag (minuend subtrahend : Byte) : Byte := flagOf (decide (minuend.toNat ≥ subtrahend.toNat))

/-- The bit a right shift by 1 shifts out: `s & 1` (R159). -/
def shiftedOutRight (b : Byte) : Byte := b &&& 1

/-- The bit a left shift by 1 shifts out: `(s >> 7) & 1` (R161). -/
def shiftedOutLeft (b : Byte) : Byte := (b >>> 7) &&& 1

/-- The result to `V[x]`, then the flag to `VF`, in that order (R150): with `x = 0xF` the flag remains. -/
def State.setResultFlag (s : State) (x : Reg) (result flag : Byte) : State := (s.setV x result).setV VF flag

end Sys2Proof.Machine
end

