-- ==== Sys2Proof/Machine/Cycle.lean ====
section
/-! DEFINITION. The parts of the cycle that are no instruction's handler: fetch, the no-op and the timer update
(spec 40_cycle.md). -/

namespace Sys2Proof.Machine

/-- What a fetch gives: the instruction word, or the lower of `pc`, `pc + 1` that is out of range under
`OOB_POLICY = fault` (20_memory.md R60, 60_exceptions.md R243). -/
inductive Fetched where
  | word (w : Word)
  | outOfRange (a : Nat)
  deriving DecidableEq, Repr

/-- The bytes at `pc` and `pc + 1`, the high byte first (R111, 20_memory.md R54). -/
def fetch (s : State) : Fetched :=
  match memOutOfRange s.cfg.oobPolicy s.pc.toNat 2 with
  | some a => .outOfRange a
  | none => .word (wordOfBytes (s.memRead s.pc.toNat) (s.memRead (s.pc.toNat + 1)))

/-- The handler of every unmapped word: nothing (R114). -/
def execNop (s : State) : Result := .next s

/-- A timer counts down to 0 and stays there (R115, 10_state.md R37). -/
def tick (t : Byte) : Byte := if t ≠ 0 then t - 1 else 0

/-- `TimerUpdate()` (R115). -/
def State.timerUpdate (s : State) : State := { s with dt := tick s.dt, st := tick s.st }

/-- The end of a cycle: the timer update after every handler but one that raised a `BoundsFault` (R115). -/
def endCycle (r : Result) : Result :=
  match r with
  | .next t => .next (if t.faulted then t else t.timerUpdate)
  | .fault f => .fault f
  | .refused q => .refused q

end Sys2Proof.Machine
end

