-- ==== Sys2Proof/Machine/Arithmetic.lean ====
section
/-! DEFINITION. Register moves and arithmetic (spec 42_arithmetic.md). Operands are read before anything is written,
and a flag is written last (R150). -/

namespace Sys2Proof.Machine

/-- `LD Vx, kk` (R151). -/
def execLdImm (x : Reg) (kk : Byte) (s : State) : Result := .next (s.setV x kk)

/-- `ADD Vx, kk` (R152): no flag. -/
def execAddImm (x : Reg) (kk : Byte) (s : State) : Result := .next (s.setV x (s.getV x + kk))

/-- `LD Vx, Vy` (R153). -/
def execLdReg (x y : Reg) (s : State) : Result := .next (s.setV x (s.getV y))

/-- `OR Vx, Vy` (R154): no flag. -/
def execOrReg (x y : Reg) (s : State) : Result := .next (s.setV x (s.getV x ||| s.getV y))

/-- `AND Vx, Vy` (R155): no flag. -/
def execAndReg (x y : Reg) (s : State) : Result := .next (s.setV x (s.getV x &&& s.getV y))

/-- `XOR Vx, Vy` (R156): no flag. -/
def execXorReg (x y : Reg) (s : State) : Result := .next (s.setV x (s.getV x ^^^ s.getV y))

/-- `ADD Vx, Vy` (R157): carry to `VF`. -/
def execAddReg (x y : Reg) (s : State) : Result :=
  .next (s.setResultFlag x (s.getV x + s.getV y) (carryFlag (s.getV x) (s.getV y)))

/-- `SUB Vx, Vy` (R158): `Vx - Vy`, not-borrow to `VF`. -/
def execSub (x y : Reg) (s : State) : Result :=
  .next (s.setResultFlag x (s.getV x - s.getV y) (notBorrowFlag (s.getV x) (s.getV y)))

/-- `SHR Vx {, Vy}` (R159): the bit shifted out to `VF`. -/
def execShr (x y : Reg) (s : State) : Result :=
  .next (s.setResultFlag x (shiftOperand s x y >>> 1) (shiftedOutRight (shiftOperand s x y)))

/-- `SUBN Vx, Vy` (R160): `Vy - Vx`, not-borrow to `VF`. -/
def execSubn (x y : Reg) (s : State) : Result :=
  .next (s.setResultFlag x (s.getV y - s.getV x) (notBorrowFlag (s.getV y) (s.getV x)))

/-- `SHL Vx {, Vy}` (R161): the bit shifted out to `VF`. -/
def execShl (x y : Reg) (s : State) : Result :=
  .next (s.setResultFlag x (shiftOperand s x y <<< 1) (shiftedOutLeft (shiftOperand s x y)))

end Sys2Proof.Machine
end

