-- ==== Sys2Proof/Machine/ControlFlow.lean ====
section
/-! DEFINITION. Control flow (spec 41_control_flow.md). Every meaning runs against the post-fetch `pc`
(10_state.md R24): the state it is given has `pc` at the instruction's address plus 2. -/

namespace Sys2Proof.Machine

/-- `JP nnn` (R131). -/
def execJp (nnn : BitVec 12) (s : State) : Result := .next (s.jump (zext16 nnn))

/-- `CALL nnn` (R132): pushes the post-fetch `pc`; a full stack is reported and recovered (60_exceptions.md R241). -/
def execCall (nnn : BitVec 12) (s : State) : Result :=
  match s.push s.pc with
  | some t => .next (t.jump (zext16 nnn))
  | none => recoverStack .stackOverflow s

/-- `RET` (R133): an empty stack is reported and recovered (60_exceptions.md R242). -/
def execRet (s : State) : Result :=
  match s.pop with
  | some (w, t) => .next (t.jump w)
  | none => recoverStack .stackUnderflow s

/-- `SE Vx, kk` (R134). -/
def execSeImm (x : Reg) (kk : Byte) (s : State) : Result := .next (s.skipIf (s.getV x == kk))

/-- `SNE Vx, kk` (R135). -/
def execSneImm (x : Reg) (kk : Byte) (s : State) : Result := .next (s.skipIf (s.getV x != kk))

/-- `SE Vx, Vy` (R136). -/
def execSeReg (x y : Reg) (s : State) : Result := .next (s.skipIf (s.getV x == s.getV y))

/-- `SNE Vx, Vy` (R137). -/
def execSneReg (x y : Reg) (s : State) : Result := .next (s.skipIf (s.getV x != s.getV y))

/-- `JP V0, nnn` (R138). -/
def execJpV0 (nnn : BitVec 12) (s : State) : Result := .next (s.jump (indexedTarget s nnn))

end Sys2Proof.Machine
end

