-- ==== Sys2Proof/Machine/Drawing.lean ====
section
/-! DEFINITION. The display instructions (spec 44_drawing.md, 48_display_clear.md). -/

namespace Sys2Proof.Machine

/-- `CLS` (48_display_clear.md R230). -/
def execCls (s : State) : Result := .next (s.setDisp Display.clear)

/-- The effect of `DRW` once its addresses have passed the bounds check: the coordinates and sprite bytes are read first,
the pixels drawn, and the collision is left in `VF` (44_drawing.md R190). -/
def drawSprite (x y : Reg) (n : Nat) (s : State) : State :=
  let drawn := drawPixels s.disp false (drwPixels s x y n)
  (s.setDisp drawn.1).setV VF (flagOf drawn.2)

/-- `DRW Vx, Vy, n` (44_drawing.md R190). -/
def execDrw (x y : Reg) (n : Nat) (s : State) : Result := checkedMem n s (drawSprite x y n s)

end Sys2Proof.Machine
end

