-- ==== Sys2Proof/Machine/Index.lean ====
section
/-! DEFINITION. Index addressing and randomization (spec 43_addressing_random.md). -/

namespace Sys2Proof.Machine

/-- `LD I, nnn` (R180). -/
def execLdI (nnn : BitVec 12) (s : State) : Result := .next (s.setIndex (zext16 nnn))

/-- `ADD I, Vx` (R181): no flag, no 12-bit mask. -/
def execAddI (x : Reg) (s : State) : Result := .next (s.setIndex (indexPlus s x))

/-- `RND Vx, kk` (R182): one fresh random byte, masked. -/
def execRnd (x : Reg) (kk : Byte) (s : State) : Result := .next (s.rand8.2.setV x (s.rand8.1 &&& kk))

end Sys2Proof.Machine
end

