-- ==== Sys2Proof/Machine/Input.lean ====
section
/-! DEFINITION. Key input (spec 45_input.md). -/

namespace Sys2Proof.Machine

/-- `SKP Vx` (R200). -/
def execSkp (x : Reg) (s : State) : Result :=
  checkedKey (s.getV x).toNat s (s.skipIf (s.keyDown (s.getV x).toNat))

/-- `SKNP Vx` (R201). -/
def execSknp (x : Reg) (s : State) : Result :=
  checkedKey (s.getV x).toNat s (s.skipIf (!s.keyDown (s.getV x).toNat))

/-- `LD Vx, K` (R202): the lowest key down, or a rewind to this instruction. -/
def execLdVxK (x : Reg) (s : State) : Result :=
  match s.lowestKeyDown with
  | some k => .next (s.setV x (BitVec.ofNat 8 k.val))
  | none => .next s.rewind

end Sys2Proof.Machine
end

