-- ==== Sys2Proof/Machine/Transfer.lean ====
section
/-! DEFINITION. BCD, bulk register transfer and font lookup (spec 47_memory_transfer.md). None changes `I` but `LD F`. -/

namespace Sys2Proof.Machine

/-- `LD B, Vx` (R220). -/
def execLdB (x : Reg) (s : State) : Result :=
  checkedMem 3 s (s.memWriteList s.index.toNat (bcdDigits (s.getV x)))

/-- `LD [I], Vx` (R221). -/
def execLdIVx (x : Reg) (s : State) : Result :=
  checkedMem (x.val + 1) s (s.memWriteList s.index.toNat (registersUpTo s x))

/-- `LD Vx, [I]` (R222). -/
def execLdVxI (x : Reg) (s : State) : Result :=
  checkedMem (x.val + 1) s { s with v := registersLoaded s x }

/-- `LD F, Vx` (R223). -/
def execLdF (x : Reg) (s : State) : Result := .next (s.setIndex (glyphAddr s x))

end Sys2Proof.Machine
end

