-- ==== Sys2Proof/Machine/Step.lean ====
section
/-! DEFINITION. One step is one `Cycle()` (spec 40_cycle.md R110): fetch, decode, execute, timer update. -/

namespace Sys2Proof.Machine

/-- The handler of a decoded word: the instruction's, or the no-op (R114). -/
def execDecoded (d : Decoded) (s : State) : Host.Outcome State Fault Refusal :=
  match d with
  | .insn i => exec i s
  | .unmapped _ => execNop s

/-- `Cycle()` (R110). A state with `FAULTED = 1` is a fault outcome (R117; log entry 2); a fetch out of range under
`OOB_POLICY = fault` is a `BoundsFault` with the state as it was (60_exceptions.md R243). -/
def step (s : State) : Host.Outcome State Fault Refusal :=
  if s.faulted then .fault .coreFaulted
  else
    match fetch s with
    | .outOfRange a => .next (s.raiseBounds .mem a)
    | .word w => endCycle (execDecoded (decodeWord w) s.advance)

/-- `s` with an instruction word where `step` fetches its next one: the bytes at `pc` and `pc + 1`, both `mod 4096`
(20_memory.md R54, R55). It stands for the host's load of a program (log entry 9). -/
def State.withFetchWord (s : State) (nbits w : Nat) : State :=
  s.memWriteList s.pc.toNat (bytesOfWord (tableWord nbits w))

end Sys2Proof.Machine
end

