-- ==== Sys2Proof/Machine/Environment.lean ====
section
/-! DEFINITION. The host's side of the core's boundary (spec 60_exceptions.md R250; 70_reset_and_hazards.md R270 to R272): what it
may do between cycles, what it sees, and a run as the sequence of states it gets. None of these is a step. -/

namespace Sys2Proof.Machine

/-- The 80 bytes of a font, in the order memory holds them (10_state.md R40). -/
def fontBytes (f : Font) : List Byte := f.toList.flatMap Vector.toList

/-- The state steps 1 to 3 of the reset sequence leave (70_reset_and_hazards.md R271, 10_state.md R47), for every value of the
parameters; the keys, the random source and the reports are the host's and are given. Under `RESET_REGS = unspecified` each value
the source does not give is free (log entry 6); `SP` is 0 under both. -/
def State.afterReset (cfg : Config) (keys : Vector Bool 16) (generator draws : Nat) (reports : List Report) : State where
  v       := match cfg.resetRegs with
             | .zero => Vector.replicate 16 0
             | .unspecified => Vector.ofFn (Config.resetV generator draws)
  index   := match cfg.resetRegs with
             | .zero => 0
             | .unspecified => Config.resetI generator draws
  pc      := BitVec.ofNat 16 loadAddr
  sp      := 0
  stack   := Vector.replicate 16 0
  dt      := match cfg.resetRegs with
             | .zero => 0
             | .unspecified => Config.resetDT generator draws
  st      := match cfg.resetRegs with
             | .zero => 0
             | .unspecified => Config.resetST generator draws
  disp    := match cfg.resetRegs with
             | .zero => Vector.replicate 32 0
             | .unspecified => Vector.ofFn (Config.resetRow generator draws)
  keys    := keys
  mem     := Memory.writeFrom [] fontBase (fontBytes cfg.font)
  faulted := false
  cfg     := cfg
  draws   := draws
  generator := generator
  reports := reports

/-- A reset request, taken between cycles (70_reset_and_hazards.md R270): memory is lost, `FAULTED` is cleared. The keys stay as the
host holds them (10_state.md R39; log entry 7), and the draws go on, so that no free value comes twice (log entry 6). -/
def State.resetRequest (s : State) : State :=
  State.afterReset s.cfg s.keys s.generator (s.draws + 1) s.reports

/-- The host's seeding of this instance's random source (70_reset_and_hazards.md R271 step 5, 60_exceptions.md R253, R256): from here
on it draws from the generator named. Two instances are two states with different generators. Log entry 20. -/
def State.seedSource (s : State) (generator : Nat) : State := { s with generator := generator }

/-- The ROM copied to 0x200 in file order; one of more than 3584 bytes is refused (70_reset_and_hazards.md R272; log entries 9 and 17). -/
def State.loadRom (s : State) (rom : List Byte) : Option State :=
  if rom.length ≤ memSize - loadAddr then some (s.memWriteList loadAddr rom) else none

/-- The host's write of the key matrix, between cycles (10_state.md R39, 60_exceptions.md R250). -/
def State.setKeys (s : State) (keys : Vector Bool 16) : State := { s with keys := keys }

/-- The pixel the host reads (10_state.md R38). -/
def State.pixel (s : State) (px : Fin 64) (py : Fin 32) : Bool := s.disp.pixel px py

/-- The sound timer as the host reads it (10_state.md R36). -/
def State.soundTimer (s : State) : Byte := s.st

/-- `Cycle()` as the total function the host calls: where `step` stops, nothing changes (40_cycle.md R116, R117). -/
def State.cycle (s : State) : State :=
  match step s with
  | .next t => t
  | .fault _ => s
  | .refused _ => s

/-- The state after `k` cycles (40_cycle.md R118). -/
def State.afterCycles (s : State) : Nat → State
  | 0 => s
  | k + 1 => (State.cycle s).afterCycles k

end Sys2Proof.Machine
end

