-- ==== Sys2Proof/Safety.lean ====
section
/-! DEFINITION. What counts as a good state and a safe cycle, in the terms claims use. -/

namespace Sys2Proof.Machine

/-- The invariant of the representation: memory is canonical, and `FAULTED` is set only where it exists, under
`OOB_POLICY = fault` (10_state.md R44). -/
abbrev State.Inv (s : State) : Prop := Memory.wf s.mem ∧ (s.faulted = true → s.cfg.oobPolicy = .fault)

/-- A cycle that completes and reports no error condition (60_exceptions.md R240). -/
def SafeCycle (s : State) : Prop := ∃ t, step s = .next t ∧ t.faulted = false ∧ t.reports = s.reports

/-- The source's invariant on `pc`, a duty of the program that the core does not check (10_state.md R27): even, and both bytes of
the instruction inside memory. -/
abbrev State.pcWellPlaced (s : State) : Prop := s.pc.toNat % 2 = 0 ∧ s.pc.toNat + 1 < memSize

/-- The bounds policy lets an access to `a, ..., a + n - 1` through (20_memory.md R55, R60). -/
abbrev memAccessAllowed (s : State) (a n : Nat) : Prop := s.cfg.oobPolicy = .wrap ∨ ∀ k < n, a + k < memSize

/-- The bounds policy lets a read of key `k` through (20_memory.md R59). -/
abbrev keyAccessAllowed (s : State) (k : Nat) : Prop := s.cfg.oobPolicy = .wrap ∨ k < 16

end Sys2Proof.Machine
end

