-- ==== Sys2Proof/Certificates/Slice0/Obligations.lean ====
section
/-! DEFINITION. The statements for the provers. The state given to `exec` is the one after the fetch: its `pc` is the instruction's
address plus 2 (spec 10_state.md R24). Numbers are taken out with `toNat` so that a statement says the spec's arithmetic and not the
model's. A rule that the spec marks as its own decision (D1 to D30) or derivation is not cited as stated. -/

open Sys2Proof Sys2Proof.Machine

namespace Sys2Proof.Statements

/-- Nothing changes but registers, of those only the ones written, and every byte of memory reads as before. -/
def RegistersOnly (s t : State) (written : Reg → Prop) : Prop :=
  t = { s with v := t.v } ∧ (∀ r, ¬ written r → t.getV r = s.getV r) ∧ ∀ a, t.memRead a = s.memRead a

/-- Nothing changes but memory, and of that only the `len` bytes from `base` on, addresses taken `mod 4096`. -/
def BytesOnly (s t : State) (base len : Nat) : Prop :=
  t = { s with mem := t.mem } ∧ (∀ r, t.getV r = s.getV r) ∧
    ∀ a, (∀ k < len, a % 4096 ≠ (base + k) % 4096) → t.memRead a = s.memRead a

/-- A running core whose fetch is let through and whose two bytes at `pc` decode to `d`. -/
def FetchesWord (s : State) (w : Word) : Prop :=
  s.faulted = false ∧ memAccessAllowed s s.pc.toNat 2 ∧
    w = wordOfBytes (s.memRead s.pc.toNat) (s.memRead (s.pc.toNat + 1))

/-- The bytes at `pc` decode to the instruction `i`. -/
def FetchesInstr (s : State) (i : Instr) : Prop :=
  s.faulted = false ∧ memAccessAllowed s s.pc.toNat 2 ∧
    decode [s.memRead s.pc.toNat, s.memRead (s.pc.toNat + 1)] = .insn i []

/-- A timer one lower, or still 0. -/
def ticked (b : Byte) : Byte := BitVec.ofNat 8 (b.toNat - 1)

/-- What a `BoundsFault` makes of the state `s0` at the start of the cycle. -/
def boundsFaulted (s0 : State) (p : Space) (a : Nat) : State :=
  { s0 with faulted := true, reports := s0.reports ++ [.boundsFault p a] }

/-- The sprite `DRW Vx, Vy, n` has a set bit on the pixel (44_drawing.md R190). -/
def SpriteCovers (s : State) (x y : Reg) (n : Nat) (px : Fin 64) (py : Fin 32) : Prop :=
  ∃ r < n, ∃ c < 8, (s.memRead (s.index.toNat + r)).getLsbD (7 - c) = true ∧
    px.val = ((s.getV x).toNat % 64 + c) % 64 ∧ py.val = ((s.getV y).toNat % 32 + r) % 32

/-- The words with no handler (30_encoding.md R94). -/
def NoHandler (w : Word) : Prop :=
  (w.toNat / 4096 = 0x0 ∧ w.toNat % 256 ≠ 0xE0 ∧ w.toNat % 256 ≠ 0xEE) ∨
  (w.toNat / 4096 = 0x8 ∧ w.toNat % 16 ∈ [0x8, 0x9, 0xA, 0xB, 0xC, 0xD, 0xF]) ∨
  (w.toNat / 4096 = 0xE ∧ w.toNat % 256 ≠ 0x9E ∧ w.toNat % 256 ≠ 0xA1) ∨
  (w.toNat / 4096 = 0xF ∧ w.toNat % 256 ∉ [0x07, 0x0A, 0x15, 0x18, 0x1E, 0x29, 0x33, 0x55, 0x65])

/-- The bits of its word an instruction does not ignore (30_encoding.md R95; `SHR` and `SHL` keep `y`, which is an operand under
`SHIFT_SOURCE = Vy`). -/
def significantBits : Instr → Word
  | .cls => 0xF0FF
  | .ret => 0xF0FF
  | .seReg _ _ => 0xFFF0
  | .sneReg _ _ => 0xFFF0
  | _ => 0xFFFF

/-- The registers an instruction may write, itself or as the flag (10_state.md R22, R23). -/
def MayWrite : Instr → Reg → Prop
  | .ldImm x _, r | .addImm x _, r | .ldReg x _, r | .orReg x _, r | .andReg x _, r | .xorReg x _, r => r = x
  | .rnd x _, r | .ldVxK x, r | .ldVxDt x, r => r = x
  | .addReg x _, r | .sub x _, r | .shr x _, r | .subn x _, r | .shl x _, r => r = x ∨ r = VF
  | .drw _ _ _, r => r = VF
  | .ldVxI x, r => r ≤ x
  | _, _ => False

/-- The six conditional skips (41_control_flow.md R130). -/
def IsSkip : Instr → Prop
  | .seImm _ _ | .sneImm _ _ | .seReg _ _ | .sneReg _ _ | .skp _ | .sknp _ => True
  | _ => False

/-- The instructions that overwrite `pc` (10_state.md R25). -/
def IsJump : Instr → Prop
  | .jp _ | .call _ | .ret | .jpV0 _ => True
  | _ => False

/-- Two states alike but for stack slots at and above `SP`, which no instruction reads (10_state.md R33). -/
def AlikeButStaleSlots (s s' : State) : Prop :=
  s' = { s with stack := s'.stack } ∧ ∀ k : Fin 16, k.val < s.sp.val → s'.stack[k] = s.stack[k]

/-- Two states alike but for the sound timer and the reports, which no instruction reads (10_state.md R36, 60_exceptions.md R246). -/
def AlikeButOutputs (s s' : State) : Prop := s' = { s with st := s'.st, reports := s'.reports }

end Sys2Proof.Statements

open Sys2Proof.Statements

/-! ## Encoding -/

/-- R82: the encodings the source gives. -/
def Obligations.SourceWordsDecode : Prop :=
  decode [0x6A, 0x02] = .insn (.ldImm 0xA 0x02) [] ∧ decode [0x80, 0x14] = .insn (.addReg 0 1) [] ∧
  decode [0x00, 0xE0] = .insn .cls [] ∧ ∀ x : Reg, decode [0xF0 ||| BitVec.ofNat 8 x.val, 0x0A] = .insn (.ldVxK x) []

/-- Every well-formed instruction's bytes decode to it, whatever bytes follow. The encodings the source does not give are the spec's
outside knowledge: log entry 13. -/
def Obligations.DecodeOfEncodeIsTheInstruction : Prop :=
  ∀ (i : Instr) (rest : List Byte), i.wellFormed = true → decode (encode i ++ rest) = .insn i rest

/-- Every decoded word is the encoding of a well-formed instruction but for the bits that instruction ignores. Which bits are
ignored is derived by the spec (R95). -/
def Obligations.EncodeOfDecodeIsTheWord : Prop :=
  ∀ (w : Word) (i : Instr), decodeWord w = .insn i → i.wellFormed = true ∧ encodeWord i = w &&& significantBits i

/-- The decoder and the opcode table agree on every word: a decoded word has the fixed bits of its row, and a word with a row's
fixed bits decodes to that row's instruction, so no two rows overlap. The table's keys are partly the spec's outside knowledge: log
entry 13. -/
def Obligations.DecoderFollowsOpcodeTable : Prop :=
  (∀ (w : Word) (i : Instr), decodeWord w = .insn i → w &&& rowMask i = rowMatch i) ∧
  ∀ (w : Word) (i : Instr), w &&& rowMask i = rowMatch i →
    ∃ j, decodeWord w = .insn j ∧ rowMask j = rowMask i ∧ rowMatch j = rowMatch i

/-- The words that select no instruction are exactly those of R94. The list is derived by the spec (R94). -/
def Obligations.UnmappedWordsAreExactlyThoseListed : Prop :=
  ∀ w : Word, (∃ u, decodeWord w = .unmapped u) ↔ NoHandler w

/-! ## The cycle -/

/-- A step is the fetch's advance of `pc`, the decoded instruction, and (unless it took a `BoundsFault`) both timers one lower. That
a BoundsFault is followed by no timer update is the spec's decision D15: log entry 14. -/
def Obligations.StepRunsDecodedInstruction : Prop :=
  ∀ (s t : State) (i : Instr), FetchesInstr s i → exec i { s with pc := s.pc + 2 } = .next t →
    step s = .next (if t.faulted then t else { t with dt := ticked t.dt, st := ticked t.st })

/-- R114: a word with no handler only advances `pc` by 2 and lets the timers count; the zero word is one. -/
def Obligations.UnmappedWordIsNoOp : Prop :=
  (∀ (s : State) (w : Word), FetchesWord s w → NoHandler w →
    step s = .next { s with pc := s.pc + 2, dt := ticked s.dt, st := ticked s.st }) ∧ NoHandler 0x0000

/-- Every cycle begun with `FAULTED = 0` gives a next state: no instruction and no word stops the core or is refused. That a
BoundsFault is a next state is the model's reading: log entry 2. -/
def Obligations.RunningCoreAlwaysSteps : Prop := ∀ s : State, s.faulted = false → ∃ t, step s = .next t

/-- A faulted core stops with its one fault, and the host's further cycles leave every part of the state as it is. FAULTED is the
spec's decision D15, and the fault outcome is the model's: log entries 2 and 14. That the host writes no key and asks for no
reset between the cycles of such a run is log entry 15. -/
def Obligations.FaultedCoreNeverChanges : Prop :=
  ∀ s : State, s.faulted = true → step s = .fault .coreFaulted ∧ ∀ k, s.afterCycles k = s

/-- The timers in a completed cycle: each is one lower or still 0, but for the instruction that writes it. Which cycles count is the
spec's decision D25: log entry 14. -/
def Obligations.TimersCountEveryCompletedCycle : Prop :=
  ∀ (s t : State) (w : Word), FetchesWord s w → step s = .next t → t.faulted = false →
    ((∀ x, decodeWord w ≠ .insn (.ldDtVx x)) → t.dt.toNat = s.dt.toNat - 1) ∧
    ((∀ x, decodeWord w ≠ .insn (.ldStVx x)) → t.st.toNat = s.st.toNat - 1)

/-- How `pc` moves in a completed cycle, for everything but the jumps, which overwrite it. That pc wraps at 16 bits is the spec's
decision D8: log entry 14. -/
def Obligations.PcMovesOnlyAsListed : Prop :=
  ∀ (s t : State) (w : Word), FetchesWord s w → step s = .next t → t.faulted = false →
    ((∃ u, decodeWord w = .unmapped u) → t.pc = s.pc + 2) ∧
    ∀ i, decodeWord w = .insn i →
      (IsSkip i → t.pc = s.pc + 2 ∨ t.pc = s.pc + 4) ∧
      ((∃ x, i = .ldVxK x) → t.pc = s.pc + 2 ∨ t.pc = s.pc) ∧
      (¬ IsSkip i → ¬ IsJump i → (∀ x, i ≠ .ldVxK x) → t.pc = s.pc + 2)

/-! ## Error conditions -/

/-- A fetch out of range under `OOB_POLICY = fault` leaves the state as it was but for `FAULTED` and the report. The BoundsFault is
the spec's decision D15: log entry 14. -/
def Obligations.FetchOutOfRangeFaults : Prop :=
  ∀ s : State, s.faulted = false → s.cfg.oobPolicy = .fault → 4096 ≤ s.pc.toNat + 1 →
    step s = .next (boundsFaulted s .mem (if 4096 ≤ s.pc.toNat then s.pc.toNat else s.pc.toNat + 1))

/-- A memory instruction out of range under `OOB_POLICY = fault` undoes the fetch and does nothing else but fault, with the lowest
address out of range. The BoundsFault is the spec's decision D15: log entries 12 and 14. -/
def Obligations.MemoryInstructionOutOfRangeFaults : Prop :=
  ∀ (s : State) (i : Instr) (n : Nat), s.cfg.oobPolicy = .fault →
    ((∃ x y, i = .drw x y n) ∨ (∃ x, i = .ldB x ∧ n = 3) ∨ (∃ x : Reg, i = .ldIVx x ∧ n = x.val + 1) ∨
      ∃ x : Reg, i = .ldVxI x ∧ n = x.val + 1) →
    n ≠ 0 → 4096 < s.index.toNat + n →
    exec i s = .next (boundsFaulted { s with pc := s.pc - 2 } .mem (if 4096 ≤ s.index.toNat then s.index.toNat else 4096))

/-- A key index of 16 or more under `OOB_POLICY = fault` undoes the fetch and does nothing else but fault. The BoundsFault is the
spec's decisions D2 and D15: log entries 12 and 14. -/
def Obligations.KeyIndexOutOfRangeFaults : Prop :=
  ∀ (s : State) (x : Reg), s.cfg.oobPolicy = .fault → 16 ≤ (s.getV x).toNat →
    exec (.skp x) s = .next (boundsFaulted { s with pc := s.pc - 2 } .key (s.getV x).toNat) ∧
    exec (.sknp x) s = .next (boundsFaulted { s with pc := s.pc - 2 } .key (s.getV x).toNat)

/-- A `BoundsFault` is precise: a cycle that ends with `FAULTED = 1` leaves everything else as it was, emits one report of it, and
happens under `OOB_POLICY = fault` only. The precise fault is the spec's decision D15: log entries 12 and 14. -/
def Obligations.BoundsFaultIsPrecise : Prop :=
  ∀ s t : State, step s = .next t → t.faulted = true →
    s.cfg.oobPolicy = .fault ∧ ∃ p a, t = boundsFaulted s p a

/-- A cycle reports nothing or one event; a stack event comes from `CALL` at depth 16 or `RET` at depth 0 and leaves `pc = 0`. The
events are the spec's decision D13, and their list is the model's record: log entries 4 and 14. -/
def Obligations.CycleReportsAtMostOneError : Prop :=
  ∀ s t : State, step s = .next t →
    t.reports = s.reports ∨ (∃ p a, t = boundsFaulted s p a) ∨
    ∃ w, fetch s = .word w ∧ t.pc = 0 ∧ t.sp = s.sp ∧ t.stack = s.stack ∧
      ((∃ nnn, decodeWord w = .insn (.call nnn) ∧ s.sp.val = 16 ∧ t.reports = s.reports ++ [.stackOverflow]) ∨
        (decodeWord w = .insn .ret ∧ s.sp.val = 0 ∧ t.reports = s.reports ++ [.stackUnderflow]))

/-- The recovery of a stack overflow and of an underflow: the report and `pc = 0`, nothing else. That SP and the stack stay is the
spec's decision D14, and the list of reports is the model's record: log entries 4 and 14. -/
def Obligations.StackErrorsRecoverAtZero : Prop :=
  ∀ s : State,
    (∀ nnn, s.sp.val = 16 → exec (.call nnn) s = .next { s with pc := 0, reports := s.reports ++ [.stackOverflow] }) ∧
    (s.sp.val = 0 → exec .ret s = .next { s with pc := 0, reports := s.reports ++ [.stackUnderflow] })

/-! ## Reset and load -/

/-- The values of the reset state but for the font's bytes. `pc` and memory are the source's; `FAULTED` is the spec's decision D15
and the other registers, the display and the keys its decision D11 (log entry 5); the parameters stand in State (log entry 1) at the
defaults of R9 (decisions D1, D3, D11 and D18; log entries 10 and 14). -/
def Obligations.ResetStateValues : Prop :=
  State.reset.pc = 0x200 ∧ (∀ r, State.reset.getV r = 0) ∧ State.reset.index = 0 ∧ State.reset.sp = 0 ∧
  (∀ k : Fin 16, State.reset.stack[k] = 0) ∧ State.reset.dt = 0 ∧ State.reset.st = 0 ∧
  (∀ px py, State.reset.pixel px py = false) ∧ (∀ k : Fin 16, State.reset.keys[k] = false) ∧ State.reset.faulted = false ∧
  State.reset.cfg = Config.spec ∧
  ∀ a < 4096, (a < 0x50 ∨ 0xA0 ≤ a → State.reset.memRead a = 0)

/-- The reset sequence for every value of the parameters: memory is zero but for the given font, `pc` is 0x200, the stack is empty,
`FAULTED` is 0; under `RESET_REGS = zero` the other values are 0. The reset request and the zero values are the spec's decisions D11
and D12: log entries 5 to 7. That the parameters stand in State, and the canonical form of memory, are the model's choices: log
entries 1 and 11. -/
def Obligations.ResetSequenceForEveryParameter : Prop :=
  ∀ (s t : State), t = s.resetRequest →
    t.pc = 0x200 ∧ t.sp = 0 ∧ t.faulted = false ∧ t.cfg = s.cfg ∧ Memory.wf t.mem ∧
    (∀ (d : Fin 16) (r : Fin 5), t.memRead (0x50 + 5 * d.val + r.val) = s.cfg.font[d][r]) ∧
    (∀ a < 4096, a < 0x50 ∨ 0xA0 ≤ a → t.memRead a = 0) ∧
    (s.cfg.resetRegs = .zero →
      (∀ r, t.getV r = 0) ∧ t.index = 0 ∧ t.dt = 0 ∧ t.st = 0 ∧ ∀ px py, t.pixel px py = false)

/-- A ROM of at most 3584 bytes is copied to 0x200 in order and nothing else changes; a longer one is refused. The refusal is the
spec's decision D22: log entry 17. -/
def Obligations.RomIsCopiedVerbatim : Prop :=
  ∀ (s : State) (rom : List Byte), Memory.wf s.mem →
    (rom.length ≤ 3584 → ∃ t, s.loadRom rom = some t ∧ BytesOnly s t 0x200 rom.length ∧
      ∀ (k : Nat) (h : k < rom.length), t.memRead (0x200 + k) = rom[k]) ∧
    (3584 < rom.length → s.loadRom rom = none)

/-! ## Invariants and rules of the whole machine -/

/-- The canonical form is the model's representation: log entry 11. -/
def Obligations.ResetSatisfiesInvariant : Prop := State.reset.Inv

/-- Every step keeps memory canonical, and `FAULTED` only under `OOB_POLICY = fault`. The canonical form is the model's
representation: log entry 11. -/
def Obligations.StepKeepsInvariant : Prop := ∀ s t : State, s.Inv → step s = .next t → t.Inv

/-- No step writes the key matrix or a parameter. That the parameters stand in State is the model's choice: log entry 1. -/
def Obligations.StepNeverWritesKeysOrParameters : Prop :=
  ∀ s t : State, step s = .next t → t.keys = s.keys ∧ t.cfg = s.cfg

/-- A register changes only in a cycle whose instruction may write it. That the logic instructions leave VF alone is the spec's
decision D5: log entry 14. -/
def Obligations.RegistersWrittenOnlyAsTabled : Prop :=
  ∀ (s t : State) (r : Reg), step s = .next t → t.getV r ≠ s.getV r →
    ∃ w i, fetch s = .word w ∧ decodeWord w = .insn i ∧ MayWrite i r

/-- `I` changes only by `LD I`, `ADD I` and `LD F`. -/
def Obligations.IndexWrittenOnlyByThree : Prop :=
  ∀ s t : State, step s = .next t → t.index ≠ s.index →
    ∃ w, fetch s = .word w ∧
      ((∃ nnn, decodeWord w = .insn (.ldI nnn)) ∨ (∃ x, decodeWord w = .insn (.addI x)) ∨ ∃ x, decodeWord w = .insn (.ldF x))

/-- The stack and its depth change only by `CALL` and `RET`, and the depth by one. That a popped slot keeps its contents is the
spec's decision D30: log entry 14. -/
def Obligations.StackChangesOnlyByCallAndRet : Prop :=
  ∀ s t : State, step s = .next t → (t.sp ≠ s.sp ∨ t.stack ≠ s.stack) →
    ∃ w, fetch s = .word w ∧
      ((∃ nnn, decodeWord w = .insn (.call nnn) ∧ t.sp.val = s.sp.val + 1) ∨
        (decodeWord w = .insn .ret ∧ t.sp.val + 1 = s.sp.val ∧ t.stack = s.stack))

/-- A byte of memory changes only by `LD B` and `LD [I]`. -/
def Obligations.MemoryWrittenOnlyByTwo : Prop :=
  ∀ (s t : State) (a : Nat), step s = .next t → t.memRead a ≠ s.memRead a →
    ∃ w, fetch s = .word w ∧ ((∃ x, decodeWord w = .insn (.ldB x)) ∨ ∃ x, decodeWord w = .insn (.ldIVx x))

/-- The display changes only by `CLS` and `DRW`. -/
def Obligations.DisplayChangesOnlyByClsAndDrw : Prop :=
  ∀ s t : State, step s = .next t → t.disp ≠ s.disp →
    ∃ w, fetch s = .word w ∧ (decodeWord w = .insn .cls ∨ ∃ x y n, decodeWord w = .insn (.drw x y n))

/-- The display can be observed only through the collision flag: two states alike but for the display step alike but for the
display, and for `VF` where the instruction is `DRW`. Two such states own the same generator at the same draw: log entries 3 and 20.
-/
def Obligations.DisplaySeenOnlyThroughCollisionFlag : Prop :=
  ∀ s s' t : State, s' = { s with disp := s'.disp } → step s = .next t →
    ∃ t', step s' = .next t' ∧ t' = { t with disp := t'.disp, v := t'.v } ∧ (∀ r, r ≠ VF → t'.getV r = t.getV r) ∧
      ((∀ w x y n, fetch s = .word w → decodeWord w ≠ .insn (.drw x y n)) → t'.v = t.v)

/-- Stack slots at and above `SP` can never be observed. That a popped slot keeps its contents is the spec's decision D30: log entry
14. Two such states own the same generator at the same draw: log entries 3 and 20. -/
def Obligations.StaleStackSlotsUnobservable : Prop :=
  ∀ s s' t : State, AlikeButStaleSlots s s' → step s = .next t → ∃ t', step s' = .next t' ∧ AlikeButStaleSlots t t'

/-- The sound timer and the reports can never be observed by a program. The list of reports is the model's record: log entry 4. Two
such states own the same generator at the same draw: log entries 3 and 20. -/
def Obligations.SoundTimerAndReportsUnobservable : Prop :=
  ∀ s s' t : State, AlikeButOutputs s s' → step s = .next t → ∃ t', step s' = .next t' ∧ AlikeButOutputs t t'

/-- The random generator an instance owns never changes and can be observed only through `RND`: two instances alike but for it step
alike but for the register an `RND` writes. The name of a generator and the draw counter are the model's: log entries 3 and 20. -/
def Obligations.GeneratorSeenOnlyThroughRnd : Prop :=
  ∀ s s' t : State, s' = { s with generator := s'.generator } → step s = .next t →
    t.generator = s.generator ∧ ∃ t', step s' = .next t' ∧ t' = { t with generator := s'.generator, v := t'.v } ∧
      ∀ r, t'.getV r ≠ t.getV r → ∃ w kk, fetch s = .word w ∧ decodeWord w = .insn (.rnd r kk)

/-! ## Control flow -/

/-- R131: the word `1nnn`, and its jump. -/
def Obligations.JumpResult : Prop :=
  ∀ (nnn : BitVec 12) (s : State), decodeWord (formA 0x1 nnn) = .insn (.jp nnn) ∧
    ∃ t, exec (.jp nnn) s = .next t ∧ t = { s with pc := t.pc } ∧ t.pc.toNat = nnn.toNat

/-- `CALL` below the full depth pushes the post-fetch `pc` in the next slot; `RET` above the empty depth pops it; nothing else
changes. That a popped slot keeps its contents is the spec's decision D30: log entry 14. -/
def Obligations.CallAndReturnResults : Prop :=
  ∀ s : State,
    (∀ nnn, s.sp.val < 16 → ∃ t, exec (.call nnn) s = .next t ∧
      t = { s with pc := t.pc, sp := t.sp, stack := t.stack } ∧ t.pc.toNat = nnn.toNat ∧ t.sp.val = s.sp.val + 1 ∧
      (∀ k : Fin 16, t.stack[k] = if k.val = s.sp.val then s.pc else s.stack[k])) ∧
    (0 < s.sp.val → ∃ t, exec .ret s = .next t ∧ t = { s with pc := t.pc, sp := t.sp } ∧ t.sp.val + 1 = s.sp.val ∧
      ∀ k : Fin 16, k.val + 1 = s.sp.val → t.pc = s.stack[k])

/-- A call and then an immediate return: `pc` is the address after the call, and the depth is as before. -/
def Obligations.CallThenReturnRoundTrip : Prop :=
  ∀ (s t : State) (nnn : BitVec 12), s.sp.val < 16 → FetchesInstr s (.call nnn) → step s = .next t → FetchesInstr t .ret →
    ∃ u, step t = .next u ∧ u.pc = s.pc + 2 ∧ u.sp = s.sp ∧ ∀ r, u.getV r = s.getV r

/-- R134 to R137: the four words, whose register forms ignore bits 3..0; a taken skip adds 2 to `pc`, one not taken nothing; nothing
else changes. -/
def Obligations.SkipResults : Prop :=
  ∀ (x y : Reg) (kk : Byte) (s : State),
    exec (.seImm x kk) s = .next { s with pc := if s.getV x = kk then s.pc + 2 else s.pc } ∧
    exec (.sneImm x kk) s = .next { s with pc := if s.getV x = kk then s.pc else s.pc + 2 } ∧
    exec (.seReg x y) s = .next { s with pc := if s.getV x = s.getV y then s.pc + 2 else s.pc } ∧
    exec (.sneReg x y) s = .next { s with pc := if s.getV x = s.getV y then s.pc else s.pc + 2 } ∧
    decodeWord (formXK 0x3 x kk) = .insn (.seImm x kk) ∧ decodeWord (formXK 0x4 x kk) = .insn (.sneImm x kk) ∧
    ∀ n, decodeWord (formXY 0x5 x y n) = .insn (.seReg x y) ∧ decodeWord (formXY 0x9 x y n) = .insn (.sneReg x y)

/-- The indexed jump: the sum with `V0`, kept in 16 bits without reduction. That the sum is kept is the spec's decision D27: log
entry 14. -/
def Obligations.IndexedJumpResult : Prop :=
  ∀ (nnn : BitVec 12) (s : State), ∃ t, exec (.jpV0 nnn) s = .next t ∧ t = { s with pc := t.pc } ∧
    t.pc.toNat = nnn.toNat + (s.getV 0).toNat

/-! ## Moves and arithmetic -/

/-- R151, R152, R153: the words, and that the loads and the immediate add write `Vx` and no flag. -/
def Obligations.MoveAndAddImmediateResults : Prop :=
  ∀ (x y : Reg) (kk : Byte) (s : State),
    decodeWord (formXK 0x6 x kk) = .insn (.ldImm x kk) ∧ decodeWord (formXK 0x7 x kk) = .insn (.addImm x kk) ∧
    decodeWord (formXY 0x8 x y 0x0) = .insn (.ldReg x y) ∧
    (∃ t, exec (.ldImm x kk) s = .next t ∧ RegistersOnly s t (· = x) ∧ t.getV x = kk) ∧
    (∃ t, exec (.addImm x kk) s = .next t ∧ RegistersOnly s t (· = x) ∧
      (t.getV x).toNat = ((s.getV x).toNat + kk.toNat) % 256) ∧
    ∃ t, exec (.ldReg x y) s = .next t ∧ RegistersOnly s t (· = x) ∧ t.getV x = s.getV y

/-- `OR`, `AND`, `XOR` bit by bit; `VF` is written only as their destination. That VF is left alone is the spec's decision D5: log
entry 14. -/
def Obligations.LogicResults : Prop :=
  ∀ (x y : Reg) (s : State),
    (∃ t, exec (.orReg x y) s = .next t ∧ RegistersOnly s t (· = x) ∧
      ∀ b < 8, (t.getV x).getLsbD b = ((s.getV x).getLsbD b || (s.getV y).getLsbD b)) ∧
    (∃ t, exec (.andReg x y) s = .next t ∧ RegistersOnly s t (· = x) ∧
      ∀ b < 8, (t.getV x).getLsbD b = ((s.getV x).getLsbD b && (s.getV y).getLsbD b)) ∧
    ∃ t, exec (.xorReg x y) s = .next t ∧ RegistersOnly s t (· = x) ∧
      ∀ b < 8, (t.getV x).getLsbD b = ((s.getV x).getLsbD b != (s.getV y).getLsbD b)

/-- `ADD Vx, Vy`: the sum `mod 256`, then the carry in `VF`, which the carry wins where `x` is F. That the flag wins in VF is the
spec's decision D4: log entry 14. -/
def Obligations.AddWithCarryResult : Prop :=
  ∀ (x y : Reg) (s : State), ∃ t, exec (.addReg x y) s = .next t ∧ RegistersOnly s t (fun r => r = x ∨ r = VF) ∧
    t.getV VF = (if (s.getV x).toNat + (s.getV y).toNat > 255 then 1 else 0) ∧
    (x ≠ VF → (t.getV x).toNat = ((s.getV x).toNat + (s.getV y).toNat) % 256)

/-- `SUB` and `SUBN`: the difference `mod 256`, then the not-borrow in `VF`. That the flag wins in VF is the spec's decision D4, and
which register is the minuend its outside knowledge: log entries 13 and 14. -/
def Obligations.SubtractResults : Prop :=
  ∀ (x y : Reg) (s : State),
    (∃ t, exec (.sub x y) s = .next t ∧ RegistersOnly s t (fun r => r = x ∨ r = VF) ∧
      t.getV VF = (if (s.getV x).toNat ≥ (s.getV y).toNat then 1 else 0) ∧
      (x ≠ VF → (t.getV x).toNat = ((s.getV x).toNat + 256 - (s.getV y).toNat) % 256)) ∧
    ∃ t, exec (.subn x y) s = .next t ∧ RegistersOnly s t (fun r => r = x ∨ r = VF) ∧
      t.getV VF = (if (s.getV y).toNat ≥ (s.getV x).toNat then 1 else 0) ∧
      (x ≠ VF → (t.getV x).toNat = ((s.getV y).toNat + 256 - (s.getV x).toNat) % 256)

/-- `SHR` and `SHL` of the register `SHIFT_SOURCE` names: the shifted value, then the bit shifted out in `VF`. The source register
and that the flag wins in VF are the spec's decisions D3 and D4: log entry 14. -/
def Obligations.ShiftResults : Prop :=
  ∀ (x y : Reg) (s : State) (b : Nat), b = (if s.cfg.shiftSource = .vx then s.getV x else s.getV y).toNat →
    (∃ t, exec (.shr x y) s = .next t ∧ RegistersOnly s t (fun r => r = x ∨ r = VF) ∧
      (t.getV VF).toNat = b % 2 ∧ (x ≠ VF → (t.getV x).toNat = b / 2)) ∧
    ∃ t, exec (.shl x y) s = .next t ∧ RegistersOnly s t (fun r => r = x ∨ r = VF) ∧
      (t.getV VF).toNat = b / 128 ∧ (x ≠ VF → (t.getV x).toNat = 2 * b % 256)

/-! ## Index register, random source -/

/-- R180: the word `Annn`, and its load. -/
def Obligations.LoadIndexResult : Prop :=
  ∀ (nnn : BitVec 12) (s : State), decodeWord (formA 0xA nnn) = .insn (.ldI nnn) ∧ ∃ t, exec (.ldI nnn) s = .next t ∧ t = { s with index := t.index } ∧
    t.index.toNat = nnn.toNat

/-- `ADD I, Vx` is `mod 65536`; `LD F, Vx` takes the whole value; neither touches a register or a flag. The widths kept are the
spec's decisions D6 and D9: log entry 14. -/
def Obligations.IndexArithmeticResults : Prop :=
  ∀ (x : Reg) (s : State),
    (∃ t, exec (.addI x) s = .next t ∧ t = { s with index := t.index } ∧
      t.index.toNat = (s.index.toNat + (s.getV x).toNat) % 65536) ∧
    ∃ t, exec (.ldF x) s = .next t ∧ t = { s with index := t.index } ∧ t.index.toNat = 0x50 + 5 * (s.getV x).toNat

/-- `RND` draws exactly one byte and stores it under the mask, whatever byte the source gives. The free byte, its counter and the
generator the instance owns are the model's: log entries 3 and 20. -/
def Obligations.RandomResult : Prop :=
  ∀ (x : Reg) (kk : Byte) (s : State), ∃ t, exec (.rnd x kk) s = .next t ∧
    t = { s with v := t.v, draws := s.draws + 1 } ∧ (∀ r, r ≠ x → t.getV r = s.getV r) ∧ (∀ a, t.memRead a = s.memRead a) ∧
    ∀ b < 8, (t.getV x).getLsbD b = ((Config.rand8 s.generator s.draws).getLsbD b && kk.getLsbD b)

/-! ## Display -/

/-- R230: every pixel 0 and nothing else changed; bits 11..8 are ignored. -/
def Obligations.ClearResult : Prop :=
  (∀ s : State, ∃ t, exec .cls s = .next t ∧ t = { s with disp := t.disp } ∧ ∀ px py, t.pixel px py = false) ∧
  ∀ x : Reg, decodeWord (formXK 0x0 x 0xE0) = .insn .cls

/-- `DRW`: exactly the sprite's pixels turn over, wrapping at both edges, `VF` is the collision, and nothing else changes.
Coordinates read first and addresses that wrap are the spec's decisions D1 and D7: log entry 14. -/
def Obligations.DrawResult : Prop :=
  ∀ (x y : Reg) (n : Nat) (s : State), n < 16 → memAccessAllowed s s.index.toNat n →
    ∃ t, exec (.drw x y n) s = .next t ∧ t = { s with v := t.v, disp := t.disp } ∧
      (∀ r, r ≠ VF → t.getV r = s.getV r) ∧ (∀ a, t.memRead a = s.memRead a) ∧
      (∀ px py, (SpriteCovers s x y n px py → t.pixel px py = !s.pixel px py) ∧
        (¬ SpriteCovers s x y n px py → t.pixel px py = s.pixel px py)) ∧
      ((∃ px py, SpriteCovers s x y n px py ∧ s.pixel px py = true) → t.getV VF = 1) ∧
      ((¬ ∃ px py, SpriteCovers s x y n px py ∧ s.pixel px py = true) → t.getV VF = 0)

/-- Drawing the same sprite twice at the same place restores the display, and the second `VF` is 1 exactly when the first draw
turned a pixel on. R191 is derived by the spec. -/
def Obligations.DoubleDrawRestoresDisplay : Prop :=
  ∀ (x y : Reg) (n : Nat) (s : State), n < 16 → x ≠ VF → y ≠ VF → memAccessAllowed s s.index.toNat n →
    ∃ t u, exec (.drw x y n) s = .next t ∧ exec (.drw x y n) t = .next u ∧ u.disp = s.disp ∧
      ((∃ px py, s.pixel px py = false ∧ t.pixel px py = true) → u.getV VF = 1) ∧
      ((¬ ∃ px py, s.pixel px py = false ∧ t.pixel px py = true) → u.getV VF = 0)

/-! ## Keys -/

/-- `SKP` and `SKNP` on an index let through: key `V[x] mod 16` decides the skip, and nothing else changes. The index modulo 16 is
the spec's decision D2: log entry 14. -/
def Obligations.KeySkipResults : Prop :=
  ∀ (x : Reg) (s : State) (k : Fin 16), keyAccessAllowed s (s.getV x).toNat → k.val = (s.getV x).toNat % 16 →
    exec (.skp x) s = .next { s with pc := if s.keys[k] = true then s.pc + 2 else s.pc } ∧
    exec (.sknp x) s = .next { s with pc := if s.keys[k] = true then s.pc else s.pc + 2 }

/-- R202: the word `Fx0A`; the lowest key down, or the program counter back at the instruction; a cycle that finds no key changes only
the timers and leaves the same instruction to run next. -/
def Obligations.KeyWaitResult : Prop :=
  ∀ (x : Reg) (s : State), decodeWord (formXK 0xF x 0x0A) = .insn (.ldVxK x) ∧
    (∀ k : Fin 16, s.keys[k] = true → (∀ j : Fin 16, j < k → s.keys[j] = false) →
      ∃ t, exec (.ldVxK x) s = .next t ∧ RegistersOnly s t (· = x) ∧ (t.getV x).toNat = k.val) ∧
    ((∀ k : Fin 16, s.keys[k] = false) →
      exec (.ldVxK x) s = .next { s with pc := s.pc - 2 } ∧
      (FetchesInstr s (.ldVxK x) → ∃ t, step s = .next t ∧ t = { s with dt := ticked s.dt, st := ticked s.st } ∧
        FetchesInstr t (.ldVxK x)))

/-- With every key up the wait goes on for ever: after `k` cycles only the timers have moved, so long as the host writes no key and
asks for no reset between the cycles: that a run by cycles alone has constant keys and no reset is the model's choice, log entry 15. -/
def Obligations.KeyWaitHasNoTimeout : Prop :=
  ∀ (x : Reg) (s : State) (k : Nat), (∀ j : Fin 16, s.keys[j] = false) → FetchesInstr s (.ldVxK x) →
    s.afterCycles k = { s with dt := BitVec.ofNat 8 (s.dt.toNat - k), st := BitVec.ofNat 8 (s.st.toNat - k) }

/-! ## Timers -/

/-- R210, R211, R212: the words, the timer moves, and what a whole cycle makes of them: `LD Vx, DT` reads the value before the cycle's decrement,
and a timer written is decremented in the same cycle. -/
def Obligations.TimerInstructionResults : Prop :=
  ∀ (x : Reg) (s : State),
    decodeWord (formXK 0xF x 0x07) = .insn (.ldVxDt x) ∧ decodeWord (formXK 0xF x 0x15) = .insn (.ldDtVx x) ∧
    decodeWord (formXK 0xF x 0x18) = .insn (.ldStVx x) ∧
    (∃ t, exec (.ldVxDt x) s = .next t ∧ RegistersOnly s t (· = x) ∧ t.getV x = s.dt) ∧
    exec (.ldDtVx x) s = .next { s with dt := s.getV x } ∧
    exec (.ldStVx x) s = .next { s with st := s.getV x } ∧
    (FetchesInstr s (.ldVxDt x) → ∃ t, step s = .next t ∧ t.getV x = s.dt ∧ t.dt = ticked s.dt) ∧
    (FetchesInstr s (.ldDtVx x) → ∃ t, step s = .next t ∧ t.dt.toNat = (s.getV x).toNat - 1) ∧
    (FetchesInstr s (.ldStVx x) → ∃ t, step s = .next t ∧ t.st.toNat = (s.getV x).toNat - 1)

/-! ## Memory transfer -/

/-- `LD B, Vx`: hundreds, tens and units at `I`, `I + 1`, `I + 2`, and nothing else changes. Addresses that wrap are the spec's
decision D1: log entry 14. -/
def Obligations.StoreDigitsResult : Prop :=
  ∀ (x : Reg) (s : State), Memory.wf s.mem → memAccessAllowed s s.index.toNat 3 →
    ∃ t, exec (.ldB x) s = .next t ∧ BytesOnly s t s.index.toNat 3 ∧
      (t.memRead s.index.toNat).toNat = (s.getV x).toNat / 100 ∧
      (t.memRead (s.index.toNat + 1)).toNat = (s.getV x).toNat / 10 % 10 ∧
      (t.memRead (s.index.toNat + 2)).toNat = (s.getV x).toNat % 10

/-- `LD [I], Vx`: `V0..Vx` at `I, ..., I + x`, and nothing else changes, `I` neither. Addresses that wrap are the spec's decision
D1: log entry 14. -/
def Obligations.StoreRegistersResult : Prop :=
  ∀ (x : Reg) (s : State), Memory.wf s.mem → memAccessAllowed s s.index.toNat (x.val + 1) →
    ∃ t, exec (.ldIVx x) s = .next t ∧ BytesOnly s t s.index.toNat (x.val + 1) ∧
      ∀ r : Reg, r ≤ x → t.memRead (s.index.toNat + r.val) = s.getV r

/-- `LD Vx, [I]`: `V0..Vx` from `I, ..., I + x`, and nothing else changes, `I` neither. Addresses that wrap are the spec's decision
D1: log entry 14. -/
def Obligations.LoadRegistersResult : Prop :=
  ∀ (x : Reg) (s : State), memAccessAllowed s s.index.toNat (x.val + 1) →
    ∃ t, exec (.ldVxI x) s = .next t ∧ RegistersOnly s t (· ≤ x) ∧
      ∀ r : Reg, r ≤ x → t.getV r = s.memRead (s.index.toNat + r.val)

/-- Registers stored and then loaded back, whatever the registers held in between. Addresses that wrap are the spec's decision D1:
log entry 14. -/
def Obligations.StoreThenLoadRestoresRegisters : Prop :=
  ∀ (x : Reg) (s : State) (v : Vector Byte 16), Memory.wf s.mem → memAccessAllowed s s.index.toNat (x.val + 1) →
    ∃ t u, exec (.ldIVx x) s = .next t ∧ exec (.ldVxI x) { t with v := v } = .next u ∧
      ∀ r : Reg, r ≤ x → u.getV r = s.getV r

/-- A store into the next instruction is what the next cycle fetches. R276 is derived by the spec, and addresses that wrap are its
decision D1: log entry 14. -/
def Obligations.StoreSeenByNextFetch : Prop :=
  ∀ (x : Reg) (s t : State) (k : Nat) (hi lo : Reg), Memory.wf s.mem → memAccessAllowed s s.index.toNat (x.val + 1) →
    memAccessAllowed s s.pc.toNat 2 → exec (.ldIVx x) s = .next t →
    s.pc.toNat % 4096 = (s.index.toNat + k) % 4096 → hi.val = k → lo.val = k + 1 → lo ≤ x →
    fetch t = .word (wordOfBytes (s.getV hi) (s.getV lo))
end

