-- ==== Sys2Proof/Laws/State.lean ====
section
/-! SUPPORT. One lemma per field per named update of the state, so that no proof unfolds a record update; then the same for the
register and memory reads. -/

namespace Sys2Proof.Machine

@[simp] theorem setV_v (s : State) (r : Reg) (b : Byte) : (s.setV r b).v = s.v.set r b := rfl
@[simp] theorem setV_index (s : State) (r : Reg) (b : Byte) : (s.setV r b).index = s.index := rfl
@[simp] theorem setV_pc (s : State) (r : Reg) (b : Byte) : (s.setV r b).pc = s.pc := rfl
@[simp] theorem setV_sp (s : State) (r : Reg) (b : Byte) : (s.setV r b).sp = s.sp := rfl
@[simp] theorem setV_stack (s : State) (r : Reg) (b : Byte) : (s.setV r b).stack = s.stack := rfl
@[simp] theorem setV_dt (s : State) (r : Reg) (b : Byte) : (s.setV r b).dt = s.dt := rfl
@[simp] theorem setV_st (s : State) (r : Reg) (b : Byte) : (s.setV r b).st = s.st := rfl
@[simp] theorem setV_disp (s : State) (r : Reg) (b : Byte) : (s.setV r b).disp = s.disp := rfl
@[simp] theorem setV_keys (s : State) (r : Reg) (b : Byte) : (s.setV r b).keys = s.keys := rfl
@[simp] theorem setV_mem (s : State) (r : Reg) (b : Byte) : (s.setV r b).mem = s.mem := rfl
@[simp] theorem setV_faulted (s : State) (r : Reg) (b : Byte) : (s.setV r b).faulted = s.faulted := rfl
@[simp] theorem setV_cfg (s : State) (r : Reg) (b : Byte) : (s.setV r b).cfg = s.cfg := rfl
@[simp] theorem setV_draws (s : State) (r : Reg) (b : Byte) : (s.setV r b).draws = s.draws := rfl
@[simp] theorem setV_generator (s : State) (r : Reg) (b : Byte) : (s.setV r b).generator = s.generator := rfl
@[simp] theorem setV_reports (s : State) (r : Reg) (b : Byte) : (s.setV r b).reports = s.reports := rfl

@[simp] theorem setIndex_v (s : State) (w : Word) : (s.setIndex w).v = s.v := rfl
@[simp] theorem setIndex_index (s : State) (w : Word) : (s.setIndex w).index = w := rfl
@[simp] theorem setIndex_pc (s : State) (w : Word) : (s.setIndex w).pc = s.pc := rfl
@[simp] theorem setIndex_sp (s : State) (w : Word) : (s.setIndex w).sp = s.sp := rfl
@[simp] theorem setIndex_stack (s : State) (w : Word) : (s.setIndex w).stack = s.stack := rfl
@[simp] theorem setIndex_dt (s : State) (w : Word) : (s.setIndex w).dt = s.dt := rfl
@[simp] theorem setIndex_st (s : State) (w : Word) : (s.setIndex w).st = s.st := rfl
@[simp] theorem setIndex_disp (s : State) (w : Word) : (s.setIndex w).disp = s.disp := rfl
@[simp] theorem setIndex_keys (s : State) (w : Word) : (s.setIndex w).keys = s.keys := rfl
@[simp] theorem setIndex_mem (s : State) (w : Word) : (s.setIndex w).mem = s.mem := rfl
@[simp] theorem setIndex_faulted (s : State) (w : Word) : (s.setIndex w).faulted = s.faulted := rfl
@[simp] theorem setIndex_cfg (s : State) (w : Word) : (s.setIndex w).cfg = s.cfg := rfl
@[simp] theorem setIndex_draws (s : State) (w : Word) : (s.setIndex w).draws = s.draws := rfl
@[simp] theorem setIndex_generator (s : State) (w : Word) : (s.setIndex w).generator = s.generator := rfl
@[simp] theorem setIndex_reports (s : State) (w : Word) : (s.setIndex w).reports = s.reports := rfl

@[simp] theorem setDT_v (s : State) (b : Byte) : (s.setDT b).v = s.v := rfl
@[simp] theorem setDT_index (s : State) (b : Byte) : (s.setDT b).index = s.index := rfl
@[simp] theorem setDT_pc (s : State) (b : Byte) : (s.setDT b).pc = s.pc := rfl
@[simp] theorem setDT_sp (s : State) (b : Byte) : (s.setDT b).sp = s.sp := rfl
@[simp] theorem setDT_stack (s : State) (b : Byte) : (s.setDT b).stack = s.stack := rfl
@[simp] theorem setDT_dt (s : State) (b : Byte) : (s.setDT b).dt = b := rfl
@[simp] theorem setDT_st (s : State) (b : Byte) : (s.setDT b).st = s.st := rfl
@[simp] theorem setDT_disp (s : State) (b : Byte) : (s.setDT b).disp = s.disp := rfl
@[simp] theorem setDT_keys (s : State) (b : Byte) : (s.setDT b).keys = s.keys := rfl
@[simp] theorem setDT_mem (s : State) (b : Byte) : (s.setDT b).mem = s.mem := rfl
@[simp] theorem setDT_faulted (s : State) (b : Byte) : (s.setDT b).faulted = s.faulted := rfl
@[simp] theorem setDT_cfg (s : State) (b : Byte) : (s.setDT b).cfg = s.cfg := rfl
@[simp] theorem setDT_draws (s : State) (b : Byte) : (s.setDT b).draws = s.draws := rfl
@[simp] theorem setDT_generator (s : State) (b : Byte) : (s.setDT b).generator = s.generator := rfl
@[simp] theorem setDT_reports (s : State) (b : Byte) : (s.setDT b).reports = s.reports := rfl

@[simp] theorem setST_v (s : State) (b : Byte) : (s.setST b).v = s.v := rfl
@[simp] theorem setST_index (s : State) (b : Byte) : (s.setST b).index = s.index := rfl
@[simp] theorem setST_pc (s : State) (b : Byte) : (s.setST b).pc = s.pc := rfl
@[simp] theorem setST_sp (s : State) (b : Byte) : (s.setST b).sp = s.sp := rfl
@[simp] theorem setST_stack (s : State) (b : Byte) : (s.setST b).stack = s.stack := rfl
@[simp] theorem setST_dt (s : State) (b : Byte) : (s.setST b).dt = s.dt := rfl
@[simp] theorem setST_st (s : State) (b : Byte) : (s.setST b).st = b := rfl
@[simp] theorem setST_disp (s : State) (b : Byte) : (s.setST b).disp = s.disp := rfl
@[simp] theorem setST_keys (s : State) (b : Byte) : (s.setST b).keys = s.keys := rfl
@[simp] theorem setST_mem (s : State) (b : Byte) : (s.setST b).mem = s.mem := rfl
@[simp] theorem setST_faulted (s : State) (b : Byte) : (s.setST b).faulted = s.faulted := rfl
@[simp] theorem setST_cfg (s : State) (b : Byte) : (s.setST b).cfg = s.cfg := rfl
@[simp] theorem setST_draws (s : State) (b : Byte) : (s.setST b).draws = s.draws := rfl
@[simp] theorem setST_generator (s : State) (b : Byte) : (s.setST b).generator = s.generator := rfl
@[simp] theorem setST_reports (s : State) (b : Byte) : (s.setST b).reports = s.reports := rfl

@[simp] theorem jump_v (s : State) (w : Word) : (s.jump w).v = s.v := rfl
@[simp] theorem jump_index (s : State) (w : Word) : (s.jump w).index = s.index := rfl
@[simp] theorem jump_pc (s : State) (w : Word) : (s.jump w).pc = w := rfl
@[simp] theorem jump_sp (s : State) (w : Word) : (s.jump w).sp = s.sp := rfl
@[simp] theorem jump_stack (s : State) (w : Word) : (s.jump w).stack = s.stack := rfl
@[simp] theorem jump_dt (s : State) (w : Word) : (s.jump w).dt = s.dt := rfl
@[simp] theorem jump_st (s : State) (w : Word) : (s.jump w).st = s.st := rfl
@[simp] theorem jump_disp (s : State) (w : Word) : (s.jump w).disp = s.disp := rfl
@[simp] theorem jump_keys (s : State) (w : Word) : (s.jump w).keys = s.keys := rfl
@[simp] theorem jump_mem (s : State) (w : Word) : (s.jump w).mem = s.mem := rfl
@[simp] theorem jump_faulted (s : State) (w : Word) : (s.jump w).faulted = s.faulted := rfl
@[simp] theorem jump_cfg (s : State) (w : Word) : (s.jump w).cfg = s.cfg := rfl
@[simp] theorem jump_draws (s : State) (w : Word) : (s.jump w).draws = s.draws := rfl
@[simp] theorem jump_generator (s : State) (w : Word) : (s.jump w).generator = s.generator := rfl
@[simp] theorem jump_reports (s : State) (w : Word) : (s.jump w).reports = s.reports := rfl

@[simp] theorem advance_v (s : State) : (s.advance).v = s.v := rfl
@[simp] theorem advance_index (s : State) : (s.advance).index = s.index := rfl
@[simp] theorem advance_pc (s : State) : (s.advance).pc = s.pc + 2 := rfl
@[simp] theorem advance_sp (s : State) : (s.advance).sp = s.sp := rfl
@[simp] theorem advance_stack (s : State) : (s.advance).stack = s.stack := rfl
@[simp] theorem advance_dt (s : State) : (s.advance).dt = s.dt := rfl
@[simp] theorem advance_st (s : State) : (s.advance).st = s.st := rfl
@[simp] theorem advance_disp (s : State) : (s.advance).disp = s.disp := rfl
@[simp] theorem advance_keys (s : State) : (s.advance).keys = s.keys := rfl
@[simp] theorem advance_mem (s : State) : (s.advance).mem = s.mem := rfl
@[simp] theorem advance_faulted (s : State) : (s.advance).faulted = s.faulted := rfl
@[simp] theorem advance_cfg (s : State) : (s.advance).cfg = s.cfg := rfl
@[simp] theorem advance_draws (s : State) : (s.advance).draws = s.draws := rfl
@[simp] theorem advance_generator (s : State) : (s.advance).generator = s.generator := rfl
@[simp] theorem advance_reports (s : State) : (s.advance).reports = s.reports := rfl

@[simp] theorem rewind_v (s : State) : (s.rewind).v = s.v := rfl
@[simp] theorem rewind_index (s : State) : (s.rewind).index = s.index := rfl
@[simp] theorem rewind_pc (s : State) : (s.rewind).pc = s.pc - 2 := rfl
@[simp] theorem rewind_sp (s : State) : (s.rewind).sp = s.sp := rfl
@[simp] theorem rewind_stack (s : State) : (s.rewind).stack = s.stack := rfl
@[simp] theorem rewind_dt (s : State) : (s.rewind).dt = s.dt := rfl
@[simp] theorem rewind_st (s : State) : (s.rewind).st = s.st := rfl
@[simp] theorem rewind_disp (s : State) : (s.rewind).disp = s.disp := rfl
@[simp] theorem rewind_keys (s : State) : (s.rewind).keys = s.keys := rfl
@[simp] theorem rewind_mem (s : State) : (s.rewind).mem = s.mem := rfl
@[simp] theorem rewind_faulted (s : State) : (s.rewind).faulted = s.faulted := rfl
@[simp] theorem rewind_cfg (s : State) : (s.rewind).cfg = s.cfg := rfl
@[simp] theorem rewind_draws (s : State) : (s.rewind).draws = s.draws := rfl
@[simp] theorem rewind_generator (s : State) : (s.rewind).generator = s.generator := rfl
@[simp] theorem rewind_reports (s : State) : (s.rewind).reports = s.reports := rfl

@[simp] theorem setDisp_v (s : State) (d : Display) : (s.setDisp d).v = s.v := rfl
@[simp] theorem setDisp_index (s : State) (d : Display) : (s.setDisp d).index = s.index := rfl
@[simp] theorem setDisp_pc (s : State) (d : Display) : (s.setDisp d).pc = s.pc := rfl
@[simp] theorem setDisp_sp (s : State) (d : Display) : (s.setDisp d).sp = s.sp := rfl
@[simp] theorem setDisp_stack (s : State) (d : Display) : (s.setDisp d).stack = s.stack := rfl
@[simp] theorem setDisp_dt (s : State) (d : Display) : (s.setDisp d).dt = s.dt := rfl
@[simp] theorem setDisp_st (s : State) (d : Display) : (s.setDisp d).st = s.st := rfl
@[simp] theorem setDisp_disp (s : State) (d : Display) : (s.setDisp d).disp = d := rfl
@[simp] theorem setDisp_keys (s : State) (d : Display) : (s.setDisp d).keys = s.keys := rfl
@[simp] theorem setDisp_mem (s : State) (d : Display) : (s.setDisp d).mem = s.mem := rfl
@[simp] theorem setDisp_faulted (s : State) (d : Display) : (s.setDisp d).faulted = s.faulted := rfl
@[simp] theorem setDisp_cfg (s : State) (d : Display) : (s.setDisp d).cfg = s.cfg := rfl
@[simp] theorem setDisp_draws (s : State) (d : Display) : (s.setDisp d).draws = s.draws := rfl
@[simp] theorem setDisp_generator (s : State) (d : Display) : (s.setDisp d).generator = s.generator := rfl
@[simp] theorem setDisp_reports (s : State) (d : Display) : (s.setDisp d).reports = s.reports := rfl

@[simp] theorem memWriteList_v (s : State) (a : Nat) (bs : List Byte) : (s.memWriteList a bs).v = s.v := rfl
@[simp] theorem memWriteList_index (s : State) (a : Nat) (bs : List Byte) : (s.memWriteList a bs).index = s.index := rfl
@[simp] theorem memWriteList_pc (s : State) (a : Nat) (bs : List Byte) : (s.memWriteList a bs).pc = s.pc := rfl
@[simp] theorem memWriteList_sp (s : State) (a : Nat) (bs : List Byte) : (s.memWriteList a bs).sp = s.sp := rfl
@[simp] theorem memWriteList_stack (s : State) (a : Nat) (bs : List Byte) : (s.memWriteList a bs).stack = s.stack := rfl
@[simp] theorem memWriteList_dt (s : State) (a : Nat) (bs : List Byte) : (s.memWriteList a bs).dt = s.dt := rfl
@[simp] theorem memWriteList_st (s : State) (a : Nat) (bs : List Byte) : (s.memWriteList a bs).st = s.st := rfl
@[simp] theorem memWriteList_disp (s : State) (a : Nat) (bs : List Byte) : (s.memWriteList a bs).disp = s.disp := rfl
@[simp] theorem memWriteList_keys (s : State) (a : Nat) (bs : List Byte) : (s.memWriteList a bs).keys = s.keys := rfl
@[simp] theorem memWriteList_mem (s : State) (a : Nat) (bs : List Byte) : (s.memWriteList a bs).mem = s.mem.writeFrom a bs := rfl
@[simp] theorem memWriteList_faulted (s : State) (a : Nat) (bs : List Byte) : (s.memWriteList a bs).faulted = s.faulted := rfl
@[simp] theorem memWriteList_cfg (s : State) (a : Nat) (bs : List Byte) : (s.memWriteList a bs).cfg = s.cfg := rfl
@[simp] theorem memWriteList_draws (s : State) (a : Nat) (bs : List Byte) : (s.memWriteList a bs).draws = s.draws := rfl
@[simp] theorem memWriteList_generator (s : State) (a : Nat) (bs : List Byte) : (s.memWriteList a bs).generator = s.generator := rfl
@[simp] theorem memWriteList_reports (s : State) (a : Nat) (bs : List Byte) : (s.memWriteList a bs).reports = s.reports := rfl

@[simp] theorem report_v (s : State) (r : Report) : (s.report r).v = s.v := rfl
@[simp] theorem report_index (s : State) (r : Report) : (s.report r).index = s.index := rfl
@[simp] theorem report_pc (s : State) (r : Report) : (s.report r).pc = s.pc := rfl
@[simp] theorem report_sp (s : State) (r : Report) : (s.report r).sp = s.sp := rfl
@[simp] theorem report_stack (s : State) (r : Report) : (s.report r).stack = s.stack := rfl
@[simp] theorem report_dt (s : State) (r : Report) : (s.report r).dt = s.dt := rfl
@[simp] theorem report_st (s : State) (r : Report) : (s.report r).st = s.st := rfl
@[simp] theorem report_disp (s : State) (r : Report) : (s.report r).disp = s.disp := rfl
@[simp] theorem report_keys (s : State) (r : Report) : (s.report r).keys = s.keys := rfl
@[simp] theorem report_mem (s : State) (r : Report) : (s.report r).mem = s.mem := rfl
@[simp] theorem report_faulted (s : State) (r : Report) : (s.report r).faulted = s.faulted := rfl
@[simp] theorem report_cfg (s : State) (r : Report) : (s.report r).cfg = s.cfg := rfl
@[simp] theorem report_draws (s : State) (r : Report) : (s.report r).draws = s.draws := rfl
@[simp] theorem report_generator (s : State) (r : Report) : (s.report r).generator = s.generator := rfl
@[simp] theorem report_reports (s : State) (r : Report) : (s.report r).reports = s.reports ++ [r] := rfl

@[simp] theorem raiseBounds_v (s : State) (p : Space) (a : Nat) : (s.raiseBounds p a).v = s.v := rfl
@[simp] theorem raiseBounds_index (s : State) (p : Space) (a : Nat) : (s.raiseBounds p a).index = s.index := rfl
@[simp] theorem raiseBounds_pc (s : State) (p : Space) (a : Nat) : (s.raiseBounds p a).pc = s.pc := rfl
@[simp] theorem raiseBounds_sp (s : State) (p : Space) (a : Nat) : (s.raiseBounds p a).sp = s.sp := rfl
@[simp] theorem raiseBounds_stack (s : State) (p : Space) (a : Nat) : (s.raiseBounds p a).stack = s.stack := rfl
@[simp] theorem raiseBounds_dt (s : State) (p : Space) (a : Nat) : (s.raiseBounds p a).dt = s.dt := rfl
@[simp] theorem raiseBounds_st (s : State) (p : Space) (a : Nat) : (s.raiseBounds p a).st = s.st := rfl
@[simp] theorem raiseBounds_disp (s : State) (p : Space) (a : Nat) : (s.raiseBounds p a).disp = s.disp := rfl
@[simp] theorem raiseBounds_keys (s : State) (p : Space) (a : Nat) : (s.raiseBounds p a).keys = s.keys := rfl
@[simp] theorem raiseBounds_mem (s : State) (p : Space) (a : Nat) : (s.raiseBounds p a).mem = s.mem := rfl
@[simp] theorem raiseBounds_faulted (s : State) (p : Space) (a : Nat) : (s.raiseBounds p a).faulted = true := rfl
@[simp] theorem raiseBounds_cfg (s : State) (p : Space) (a : Nat) : (s.raiseBounds p a).cfg = s.cfg := rfl
@[simp] theorem raiseBounds_draws (s : State) (p : Space) (a : Nat) : (s.raiseBounds p a).draws = s.draws := rfl
@[simp] theorem raiseBounds_generator (s : State) (p : Space) (a : Nat) : (s.raiseBounds p a).generator = s.generator := rfl
@[simp] theorem raiseBounds_reports (s : State) (p : Space) (a : Nat) : (s.raiseBounds p a).reports = s.reports ++ [.boundsFault p a] := rfl

@[simp] theorem timerUpdate_v (s : State) : (s.timerUpdate).v = s.v := rfl
@[simp] theorem timerUpdate_index (s : State) : (s.timerUpdate).index = s.index := rfl
@[simp] theorem timerUpdate_pc (s : State) : (s.timerUpdate).pc = s.pc := rfl
@[simp] theorem timerUpdate_sp (s : State) : (s.timerUpdate).sp = s.sp := rfl
@[simp] theorem timerUpdate_stack (s : State) : (s.timerUpdate).stack = s.stack := rfl
@[simp] theorem timerUpdate_dt (s : State) : (s.timerUpdate).dt = tick s.dt := rfl
@[simp] theorem timerUpdate_st (s : State) : (s.timerUpdate).st = tick s.st := rfl
@[simp] theorem timerUpdate_disp (s : State) : (s.timerUpdate).disp = s.disp := rfl
@[simp] theorem timerUpdate_keys (s : State) : (s.timerUpdate).keys = s.keys := rfl
@[simp] theorem timerUpdate_mem (s : State) : (s.timerUpdate).mem = s.mem := rfl
@[simp] theorem timerUpdate_faulted (s : State) : (s.timerUpdate).faulted = s.faulted := rfl
@[simp] theorem timerUpdate_cfg (s : State) : (s.timerUpdate).cfg = s.cfg := rfl
@[simp] theorem timerUpdate_draws (s : State) : (s.timerUpdate).draws = s.draws := rfl
@[simp] theorem timerUpdate_generator (s : State) : (s.timerUpdate).generator = s.generator := rfl
@[simp] theorem timerUpdate_reports (s : State) : (s.timerUpdate).reports = s.reports := rfl

@[simp] theorem setResultFlag_v (s : State) (x : Reg) (b f : Byte) : (s.setResultFlag x b f).v = (s.v.set x b).set VF f := rfl
@[simp] theorem setResultFlag_index (s : State) (x : Reg) (b f : Byte) : (s.setResultFlag x b f).index = s.index := rfl
@[simp] theorem setResultFlag_pc (s : State) (x : Reg) (b f : Byte) : (s.setResultFlag x b f).pc = s.pc := rfl
@[simp] theorem setResultFlag_sp (s : State) (x : Reg) (b f : Byte) : (s.setResultFlag x b f).sp = s.sp := rfl
@[simp] theorem setResultFlag_stack (s : State) (x : Reg) (b f : Byte) : (s.setResultFlag x b f).stack = s.stack := rfl
@[simp] theorem setResultFlag_dt (s : State) (x : Reg) (b f : Byte) : (s.setResultFlag x b f).dt = s.dt := rfl
@[simp] theorem setResultFlag_st (s : State) (x : Reg) (b f : Byte) : (s.setResultFlag x b f).st = s.st := rfl
@[simp] theorem setResultFlag_disp (s : State) (x : Reg) (b f : Byte) : (s.setResultFlag x b f).disp = s.disp := rfl
@[simp] theorem setResultFlag_keys (s : State) (x : Reg) (b f : Byte) : (s.setResultFlag x b f).keys = s.keys := rfl
@[simp] theorem setResultFlag_mem (s : State) (x : Reg) (b f : Byte) : (s.setResultFlag x b f).mem = s.mem := rfl
@[simp] theorem setResultFlag_faulted (s : State) (x : Reg) (b f : Byte) : (s.setResultFlag x b f).faulted = s.faulted := rfl
@[simp] theorem setResultFlag_cfg (s : State) (x : Reg) (b f : Byte) : (s.setResultFlag x b f).cfg = s.cfg := rfl
@[simp] theorem setResultFlag_draws (s : State) (x : Reg) (b f : Byte) : (s.setResultFlag x b f).draws = s.draws := rfl
@[simp] theorem setResultFlag_generator (s : State) (x : Reg) (b f : Byte) : (s.setResultFlag x b f).generator = s.generator := rfl
@[simp] theorem setResultFlag_reports (s : State) (x : Reg) (b f : Byte) : (s.setResultFlag x b f).reports = s.reports := rfl

/-! The state after a draw of the random source: only the draw count moves. -/

@[simp] theorem rand8_value (s : State) : s.rand8.1 = Config.rand8 s.generator s.draws := rfl
@[simp] theorem rand8_v (s : State) : s.rand8.2.v = s.v := rfl
@[simp] theorem rand8_index (s : State) : s.rand8.2.index = s.index := rfl
@[simp] theorem rand8_pc (s : State) : s.rand8.2.pc = s.pc := rfl
@[simp] theorem rand8_sp (s : State) : s.rand8.2.sp = s.sp := rfl
@[simp] theorem rand8_stack (s : State) : s.rand8.2.stack = s.stack := rfl
@[simp] theorem rand8_dt (s : State) : s.rand8.2.dt = s.dt := rfl
@[simp] theorem rand8_st (s : State) : s.rand8.2.st = s.st := rfl
@[simp] theorem rand8_disp (s : State) : s.rand8.2.disp = s.disp := rfl
@[simp] theorem rand8_keys (s : State) : s.rand8.2.keys = s.keys := rfl
@[simp] theorem rand8_mem (s : State) : s.rand8.2.mem = s.mem := rfl
@[simp] theorem rand8_faulted (s : State) : s.rand8.2.faulted = s.faulted := rfl
@[simp] theorem rand8_cfg (s : State) : s.rand8.2.cfg = s.cfg := rfl
@[simp] theorem rand8_draws (s : State) : s.rand8.2.draws = s.draws + 1 := rfl
@[simp] theorem rand8_generator (s : State) : s.rand8.2.generator = s.generator := rfl
@[simp] theorem rand8_reports (s : State) : s.rand8.2.reports = s.reports := rfl

/-! A conditional skip moves at most `pc`. -/

@[simp] theorem skipIf_pc (s : State) (c : Bool) : (s.skipIf c).pc = if c then s.pc + 2 else s.pc := by cases c <;> rfl
@[simp] theorem skipIf_v (s : State) (c : Bool) : (s.skipIf c).v = s.v := by cases c <;> rfl
@[simp] theorem skipIf_index (s : State) (c : Bool) : (s.skipIf c).index = s.index := by cases c <;> rfl
@[simp] theorem skipIf_sp (s : State) (c : Bool) : (s.skipIf c).sp = s.sp := by cases c <;> rfl
@[simp] theorem skipIf_stack (s : State) (c : Bool) : (s.skipIf c).stack = s.stack := by cases c <;> rfl
@[simp] theorem skipIf_dt (s : State) (c : Bool) : (s.skipIf c).dt = s.dt := by cases c <;> rfl
@[simp] theorem skipIf_st (s : State) (c : Bool) : (s.skipIf c).st = s.st := by cases c <;> rfl
@[simp] theorem skipIf_disp (s : State) (c : Bool) : (s.skipIf c).disp = s.disp := by cases c <;> rfl
@[simp] theorem skipIf_keys (s : State) (c : Bool) : (s.skipIf c).keys = s.keys := by cases c <;> rfl
@[simp] theorem skipIf_mem (s : State) (c : Bool) : (s.skipIf c).mem = s.mem := by cases c <;> rfl
@[simp] theorem skipIf_faulted (s : State) (c : Bool) : (s.skipIf c).faulted = s.faulted := by cases c <;> rfl
@[simp] theorem skipIf_cfg (s : State) (c : Bool) : (s.skipIf c).cfg = s.cfg := by cases c <;> rfl
@[simp] theorem skipIf_draws (s : State) (c : Bool) : (s.skipIf c).draws = s.draws := by cases c <;> rfl
@[simp] theorem skipIf_generator (s : State) (c : Bool) : (s.skipIf c).generator = s.generator := by cases c <;> rfl
@[simp] theorem skipIf_reports (s : State) (c : Bool) : (s.skipIf c).reports = s.reports := by cases c <;> rfl

/-- A register reads from `v` alone. -/
theorem getV_congr {s t : State} (h : t.v = s.v) (r : Reg) : t.getV r = s.getV r := by simp [State.getV, h]

/-- A memory read sees `mem` alone. -/
theorem memRead_congr {s t : State} (h : t.mem = s.mem) (a : Nat) : t.memRead a = s.memRead a := by simp [State.memRead, h]

@[simp] theorem memRead_setV (s : State) (r : Reg) (b : Byte) (a' : Nat) : (s.setV r b).memRead a' = s.memRead a' := memRead_congr (by simp) a'
@[simp] theorem getV_setIndex (s : State) (w : Word) (r' : Reg) : (s.setIndex w).getV r' = s.getV r' := getV_congr (by simp) r'
@[simp] theorem memRead_setIndex (s : State) (w : Word) (a' : Nat) : (s.setIndex w).memRead a' = s.memRead a' := memRead_congr (by simp) a'
@[simp] theorem getV_setDT (s : State) (b : Byte) (r' : Reg) : (s.setDT b).getV r' = s.getV r' := getV_congr (by simp) r'
@[simp] theorem memRead_setDT (s : State) (b : Byte) (a' : Nat) : (s.setDT b).memRead a' = s.memRead a' := memRead_congr (by simp) a'
@[simp] theorem getV_setST (s : State) (b : Byte) (r' : Reg) : (s.setST b).getV r' = s.getV r' := getV_congr (by simp) r'
@[simp] theorem memRead_setST (s : State) (b : Byte) (a' : Nat) : (s.setST b).memRead a' = s.memRead a' := memRead_congr (by simp) a'
@[simp] theorem getV_jump (s : State) (w : Word) (r' : Reg) : (s.jump w).getV r' = s.getV r' := getV_congr (by simp) r'
@[simp] theorem memRead_jump (s : State) (w : Word) (a' : Nat) : (s.jump w).memRead a' = s.memRead a' := memRead_congr (by simp) a'
@[simp] theorem getV_advance (s : State) (r' : Reg) : (s.advance).getV r' = s.getV r' := getV_congr (by simp) r'
@[simp] theorem memRead_advance (s : State) (a' : Nat) : (s.advance).memRead a' = s.memRead a' := memRead_congr (by simp) a'
@[simp] theorem getV_rewind (s : State) (r' : Reg) : (s.rewind).getV r' = s.getV r' := getV_congr (by simp) r'
@[simp] theorem memRead_rewind (s : State) (a' : Nat) : (s.rewind).memRead a' = s.memRead a' := memRead_congr (by simp) a'
@[simp] theorem getV_setDisp (s : State) (d : Display) (r' : Reg) : (s.setDisp d).getV r' = s.getV r' := getV_congr (by simp) r'
@[simp] theorem memRead_setDisp (s : State) (d : Display) (a' : Nat) : (s.setDisp d).memRead a' = s.memRead a' := memRead_congr (by simp) a'
@[simp] theorem getV_memWriteList (s : State) (a : Nat) (bs : List Byte) (r' : Reg) : (s.memWriteList a bs).getV r' = s.getV r' := getV_congr (by simp) r'
@[simp] theorem getV_report (s : State) (r : Report) (r' : Reg) : (s.report r).getV r' = s.getV r' := getV_congr (by simp) r'
@[simp] theorem memRead_report (s : State) (r : Report) (a' : Nat) : (s.report r).memRead a' = s.memRead a' := memRead_congr (by simp) a'
@[simp] theorem getV_raiseBounds (s : State) (p : Space) (a : Nat) (r' : Reg) : (s.raiseBounds p a).getV r' = s.getV r' := getV_congr (by simp) r'
@[simp] theorem memRead_raiseBounds (s : State) (p : Space) (a : Nat) (a' : Nat) : (s.raiseBounds p a).memRead a' = s.memRead a' := memRead_congr (by simp) a'
@[simp] theorem getV_timerUpdate (s : State) (r' : Reg) : (s.timerUpdate).getV r' = s.getV r' := getV_congr (by simp) r'
@[simp] theorem memRead_timerUpdate (s : State) (a' : Nat) : (s.timerUpdate).memRead a' = s.memRead a' := memRead_congr (by simp) a'
@[simp] theorem memRead_setResultFlag (s : State) (x : Reg) (b f : Byte) (a' : Nat) : (s.setResultFlag x b f).memRead a' = s.memRead a' := memRead_congr (by simp) a'
@[simp] theorem getV_skipIf (s : State) (c : Bool) (r' : Reg) : (s.skipIf c).getV r' = s.getV r' := getV_congr (by simp) r'
@[simp] theorem memRead_skipIf (s : State) (c : Bool) (a' : Nat) : (s.skipIf c).memRead a' = s.memRead a' := memRead_congr (by simp) a'

/-! Register writes. -/

@[simp] theorem getV_setV_same (s : State) (r : Reg) (b : Byte) : (s.setV r b).getV r = b := by
  simp [State.getV, State.setV]

@[simp] theorem getV_setV_other (s : State) {r q : Reg} (b : Byte) (h : q ≠ r) : (s.setV r b).getV q = s.getV q := by
  have h' : r.val ≠ q.val := fun e => h (Fin.ext e.symm)
  simp [State.getV, State.setV, h']

/-- Every register after one is written. -/
theorem getV_setV (s : State) (r q : Reg) (b : Byte) : (s.setV r b).getV q = if q = r then b else s.getV q := by
  by_cases h : q = r
  · subst h; simp
  · simp [h]

/-- Every register after a result with its flag: the flag wins in `VF` (42_arithmetic.md R150). -/
theorem getV_setResultFlag (s : State) (x q : Reg) (b f : Byte) :
    (s.setResultFlag x b f).getV q = if q = VF then f else if q = x then b else s.getV q := by
  simp only [State.setResultFlag, getV_setV]

end Sys2Proof.Machine
end

