-- ==== Sys2Proof/Laws/Bounds.lean ====
section
/-! SUPPORT. The bounds policy, and everything a checked handler, a push and a pop can do. -/

namespace Sys2Proof.Machine

/-- Under `wrap` nothing is checked (20_memory.md R60). -/
@[simp] theorem memOutOfRange_wrap (a n : Nat) : memOutOfRange .wrap a n = none := rfl

/-- An access passes exactly when the policy is `wrap` or every address is in memory. -/
theorem memOutOfRange_none {s : State} {a n : Nat} :
    memOutOfRange s.cfg.oobPolicy a n = none ↔ memAccessAllowed s a n := by
  cases h : s.cfg.oobPolicy with
  | wrap => simp [memAccessAllowed, h]
  | fault => simp [memOutOfRange, memAccessAllowed, h, List.find?_eq_none]

/-- The first address of a rising run that lies at or past `m` is the run's start or `m`. -/
theorem find_first_ge (m a n : Nat) :
    ((List.range n).map (a + ·)).find? (fun b => decide (m ≤ b)) = if a + n ≤ m ∨ n = 0 then none else some (max a m) := by
  induction n with
  | zero => simp
  | succ n ih =>
    rw [List.range_succ, List.map_append, List.find?_append, ih]
    by_cases h1 : a + n ≤ m ∨ n = 0
    · rw [if_pos h1]
      by_cases h2 : m ≤ a + n
      · have : max a m = a + n := by omega
        simp [h2, this]; omega
      · simp [List.find?, h2]; omega
    · rw [if_neg h1, if_neg (by omega)]; rfl

/-- The recorded address is the lowest one out of range (60_exceptions.md R243): the first of the run at or past the end. -/
theorem memOutOfRange_fault (a n : Nat) :
    memOutOfRange .fault a n = if a + n ≤ memSize ∨ n = 0 then none else some (max a memSize) :=
  find_first_ge memSize a n

/-- A key index passes exactly when the policy is `wrap` or it is below 16. -/
theorem keyOutOfRange_none {s : State} {k : Nat} :
    keyOutOfRange s.cfg.oobPolicy k = none ↔ keyAccessAllowed s k := by
  cases h : s.cfg.oobPolicy with
  | wrap => simp [keyOutOfRange, keyAccessAllowed, h]
  | fault => by_cases hk : k < 16 <;> simp [keyOutOfRange, keyAccessAllowed, h, hk]

/-- A checked handler has its effect or takes a `BoundsFault`; nothing else. -/
theorem checked_cases {oob : Option Nat} {p : Space} {s e t : State} (h : checked oob p s e = .next t) :
    (oob = none ∧ t = e) ∨ ∃ a, oob = some a ∧ t = s.rewind.raiseBounds p a := by
  cases oob with
  | none => exact .inl ⟨rfl, by cases h; rfl⟩
  | some a => exact .inr ⟨a, rfl, by cases h; rfl⟩

/-- A memory handler let through has its effect. -/
theorem checkedMem_allowed {n : Nat} {s : State} (e : State) (h : memAccessAllowed s s.index.toNat n) :
    checkedMem n s e = .next e := by
  rw [checkedMem, memOutOfRange_none.mpr h]; rfl

/-- A key handler let through has its effect. -/
theorem checkedKey_allowed {k : Nat} {s : State} (e : State) (h : keyAccessAllowed s k) : checkedKey k s e = .next e := by
  rw [checkedKey, keyOutOfRange_none.mpr h]; rfl

/-- A memory handler turned away takes the fault with the lowest address out of range. -/
theorem checkedMem_faults {n : Nat} {s : State} (e : State) (hp : s.cfg.oobPolicy = .fault) (hn : 0 < n)
    (h : memSize < s.index.toNat + n) :
    checkedMem n s e = .next (s.rewind.raiseBounds .mem (max s.index.toNat memSize)) := by
  rw [checkedMem, hp, memOutOfRange_fault, if_neg (by omega)]; rfl

/-- A key handler turned away takes the fault with its index. -/
theorem checkedKey_faults {k : Nat} {s : State} (e : State) (hp : s.cfg.oobPolicy = .fault) (h : 16 ≤ k) :
    checkedKey k s e = .next (s.rewind.raiseBounds .key k) := by
  rw [checkedKey, hp, keyOutOfRange, if_neg (by omega)]; rfl

/-- A push on a stack that is not full. -/
theorem push_notFull {s : State} (w : Word) (h : s.sp.val < 16) :
    s.push w = some { s with stack := s.stack.set s.sp.val w, sp := ⟨s.sp.val + 1, by omega⟩ } := dif_pos h

/-- A push on a full stack. -/
theorem push_full {s : State} (w : Word) (h : s.sp.val = 16) : s.push w = none := dif_neg (by omega)

/-- A pop of a stack that is not empty. -/
theorem pop_notEmpty {s : State} (h : 0 < s.sp.val) :
    s.pop = some (s.stack[s.sp.val - 1], { s with sp := ⟨s.sp.val - 1, by omega⟩ }) := dif_pos h

/-- A pop of an empty stack. -/
theorem pop_empty {s : State} (h : s.sp.val = 0) : s.pop = none := dif_neg (by omega)

/-- The key scan finds a key that is down and below which every key is up (45_input.md R202). -/
theorem lowestKeyDown_some {s : State} {k : Reg} :
    s.lowestKeyDown = some k ↔ s.keys[k] = true ∧ ∀ j < k, s.keys[j] = false := by
  have hmap : ∀ (n : Nat) (p : Fin n → Bool) (k : Fin n),
      (List.finRange n).find? p = some k ↔ p k = true ∧ ∀ j < k, p j = false := by
    intro n p k
    rw [← List.ofFn_id, List.find?_ofFn_eq_some]
    simp
  exact hmap 16 _ k

/-- The scan finds none exactly when every key is up. -/
theorem lowestKeyDown_none {s : State} : s.lowestKeyDown = none ↔ ∀ k : Reg, s.keys[k] = false := by
  simp [State.lowestKeyDown, List.find?_eq_none]

end Sys2Proof.Machine
end

