-- ==== Sys2Proof/Laws/Cycle.lean ====
section
/-! SUPPORT. The parts of a cycle, and everything one step can do. -/

namespace Sys2Proof.Machine

/-- A timer goes down by one and stops at 0 (10_state.md R34, R37). -/
theorem tick_toNat (t : Byte) : (tick t).toNat = t.toNat - 1 := by
  unfold tick
  split
  · next h =>
    have : t.toNat ≠ 0 := fun e => h (BitVec.eq_of_toNat_eq (by simpa using e))
    have := t.isLt
    rw [BitVec.toNat_sub, show (1 : Byte).toNat = 1 from rfl]
    omega
  · next h => simp [not_not.mp h]

/-- The end of a cycle answers a next state only for a handler that did (40_cycle.md R115). -/
theorem endCycle_next {r : Result} {t : State} :
    endCycle r = .next t ↔ ∃ u, r = .next u ∧ t = if u.faulted then u else u.timerUpdate := by
  cases r with
  | next u => simp only [endCycle, Host.Outcome.next.injEq, exists_eq_left']; exact eq_comm
  | fault f => simp [endCycle]
  | refused q => simp [endCycle]

/-- A fetch that passes the bounds check gives the two bytes at `pc`, high byte first (40_cycle.md R111). -/
theorem fetch_allowed {s : State} (h : memAccessAllowed s s.pc.toNat 2) :
    fetch s = .word (wordOfBytes (s.memRead s.pc.toNat) (s.memRead (s.pc.toNat + 1))) := by
  rw [fetch, memOutOfRange_none.mpr h]

/-- A fetch that does not pass it gives the lower of `pc`, `pc + 1` that is out of range (60_exceptions.md R243). -/
theorem fetch_faults {s : State} (hp : s.cfg.oobPolicy = .fault) (h : memSize < s.pc.toNat + 2) :
    fetch s = .outOfRange (max s.pc.toNat memSize) := by
  rw [fetch, hp, memOutOfRange_fault, if_neg (by omega)]

/-- A faulted core stops (40_cycle.md R117). -/
theorem step_faulted {s : State} (h : s.faulted = true) : step s = .fault .coreFaulted := by rw [step, if_pos h]

/-- A step whose fetch gives a word runs its handler, then the timer update. -/
theorem step_word {s : State} {w : Word} (hf : s.faulted = false) (h : fetch s = .word w) :
    step s = endCycle (execDecoded (decodeWord w) s.advance) := by
  rw [step, if_neg (by simp [hf]), h]

/-- A step whose fetch is out of range takes the `BoundsFault`. -/
theorem step_outOfRange {s : State} {a : Nat} (hf : s.faulted = false) (h : fetch s = .outOfRange a) :
    step s = .next (s.raiseBounds .mem a) := by
  rw [step, if_neg (by simp [hf]), h]

/-- Everything a step that answers a next state can have done. -/
theorem step_cases {s t : State} (h : step s = .next t) :
    s.faulted = false ∧
      ((∃ a, fetch s = .outOfRange a ∧ t = s.raiseBounds .mem a) ∨
       ∃ w u, fetch s = .word w ∧ execDecoded (decodeWord w) s.advance = .next u ∧
         t = if u.faulted then u else u.timerUpdate) := by
  by_cases hf : s.faulted = true
  · rw [step_faulted hf] at h; cases h
  · have hf : s.faulted = false := by simpa using hf
    refine ⟨hf, ?_⟩
    cases hw : fetch s with
    | outOfRange a =>
      rw [step_outOfRange hf hw] at h
      cases h
      exact .inl ⟨a, rfl, rfl⟩
    | word w =>
      rw [step_word hf hw] at h
      obtain ⟨u, hu, ht⟩ := endCycle_next.mp h
      exact .inr ⟨w, u, rfl, hu, ht⟩

end Sys2Proof.Machine
end

