-- ==== Sys2Proof/Laws/Decode.lean ====
section
/-! SUPPORT. The fields of the three word forms, and that two bytes make the word they were cut from. All of it is arithmetic on the
numbers the words stand for. -/

namespace Sys2Proof

theorem append_toNat {m n : Nat} (a : BitVec m) (b : BitVec n) : (a ++ b).toNat = a.toNat * 2 ^ n + b.toNat := by
  rw [BitVec.toNat_append, ← Nat.shiftLeft_add_eq_or_of_lt b.isLt, Nat.shiftLeft_eq]

theorem extract_toNat {w : Nat} (a : BitVec w) (lo n : Nat) :
    (a.extractLsb' lo n).toNat = a.toNat / 2 ^ lo % 2 ^ n := by
  rw [BitVec.extractLsb'_toNat, Nat.shiftRight_eq_div_pow]

/-- A word is its high byte and its low byte (20_memory.md R54). -/
@[simp] theorem wordOfBytes_extract (w : Word) : wordOfBytes (w.extractLsb' 8 8) (w.extractLsb' 0 8) = w := by
  apply BitVec.eq_of_toNat_eq
  have := w.isLt
  simp only [wordOfBytes, append_toNat, extract_toNat]
  omega

/-- The bytes of a word decode to what the word decodes to. -/
theorem decode_bytesOfWord (w : Word) (rest : List Byte) :
    decode (bytesOfWord w ++ rest) = match decodeWord w with
      | .insn i => .insn i rest
      | .unmapped u => .unmapped u rest := by
  have h : decode (bytesOfWord w ++ rest) = match decodeWord (wordOfBytes (w.extractLsb' 8 8) (w.extractLsb' 0 8)) with
      | .insn i => .insn i rest
      | .unmapped u => .unmapped u rest := rfl
  rw [h, wordOfBytes_extract]

@[simp] theorem regBits_toNat (r : Reg) : (regBits r).toNat = r.val := rfl

section
variable (op n : BitVec 4) (x y : Reg) (kk : Byte) (nnn : BitVec 12)

theorem formA_toNat : (formA op nnn).toNat = op.toNat * 4096 + nnn.toNat := append_toNat _ _

theorem formXK_toNat : (formXK op x kk).toNat = (op.toNat * 16 + x.val) * 256 + kk.toNat := by
  simp only [formXK, append_toNat, regBits_toNat, Nat.reducePow]

theorem formXY_toNat : (formXY op x y n).toNat = (op.toNat * 16 + x.val) * 256 + (y.val * 16 + n.toNat) := by
  rw [formXY, append_toNat, append_toNat, append_toNat, regBits_toNat, regBits_toNat]; norm_num

@[simp] theorem fieldOp_formA : fieldOp (formA op nnn) = op := by
  apply BitVec.eq_of_toNat_eq
  have := op.isLt; have := nnn.isLt
  simp only [fieldOp, extract_toNat, formA_toNat]; omega

@[simp] theorem fieldNNN_formA : fieldNNN (formA op nnn) = nnn := by
  apply BitVec.eq_of_toNat_eq
  have := op.isLt; have := nnn.isLt
  simp only [fieldNNN, extract_toNat, formA_toNat]; omega

@[simp] theorem fieldOp_formXK : fieldOp (formXK op x kk) = op := by
  apply BitVec.eq_of_toNat_eq
  have := op.isLt; have := x.isLt; have := kk.isLt
  simp only [fieldOp, extract_toNat, formXK_toNat]; omega

@[simp] theorem fieldX_formXK : fieldX (formXK op x kk) = x := by
  apply Fin.ext
  have := op.isLt; have := x.isLt; have := kk.isLt
  simp only [fieldX, BitVec.val_toFin, extract_toNat, formXK_toNat]; omega

@[simp] theorem fieldKK_formXK : fieldKK (formXK op x kk) = kk := by
  apply BitVec.eq_of_toNat_eq
  have := op.isLt; have := x.isLt; have := kk.isLt
  simp only [fieldKK, extract_toNat, formXK_toNat]; omega

@[simp] theorem fieldOp_formXY : fieldOp (formXY op x y n) = op := by
  apply BitVec.eq_of_toNat_eq
  have := op.isLt; have := x.isLt; have := y.isLt; have := n.isLt
  simp only [fieldOp, extract_toNat, formXY_toNat]; omega

@[simp] theorem fieldX_formXY : fieldX (formXY op x y n) = x := by
  apply Fin.ext
  have := op.isLt; have := x.isLt; have := y.isLt; have := n.isLt
  simp only [fieldX, BitVec.val_toFin, extract_toNat, formXY_toNat]; omega

@[simp] theorem fieldY_formXY : fieldY (formXY op x y n) = y := by
  apply Fin.ext
  have := op.isLt; have := x.isLt; have := y.isLt; have := n.isLt
  simp only [fieldY, BitVec.val_toFin, extract_toNat, formXY_toNat]; omega

@[simp] theorem fieldN_formXY : fieldN (formXY op x y n) = n := by
  apply BitVec.eq_of_toNat_eq
  have := op.isLt; have := x.isLt; have := y.isLt; have := n.isLt
  simp only [fieldN, extract_toNat, formXY_toNat]; omega

end

/-! A word is the form made of its own fields, so a decoded instruction says all its row's bits. -/

theorem formA_fields (w : Word) : formA (fieldOp w) (fieldNNN w) = w := by
  apply BitVec.eq_of_toNat_eq
  have := w.isLt
  simp only [formA_toNat, fieldOp, fieldNNN, extract_toNat]; omega

theorem formXK_fields (w : Word) : formXK (fieldOp w) (fieldX w) (fieldKK w) = w := by
  apply BitVec.eq_of_toNat_eq
  have := w.isLt
  simp only [formXK_toNat, fieldOp, fieldX, fieldKK, BitVec.val_toFin, extract_toNat]; omega

theorem formXY_fields (w : Word) : formXY (fieldOp w) (fieldX w) (fieldY w) (fieldN w) = w := by
  apply BitVec.eq_of_toNat_eq
  have := w.isLt
  simp only [formXY_toNat, fieldOp, fieldX, fieldY, fieldN, BitVec.val_toFin, extract_toNat]; omega

/-! The masks of the table, on the forms. -/

theorem formA_mask (op : BitVec 4) (nnn : BitVec 12) : formA op nnn &&& 0xF000 = op ++ 0#12 := by
  have h : (0xF000 : Word) = BitVec.allOnes 4 ++ 0#12 := by decide
  rw [h, formA, BitVec.and_append, BitVec.and_allOnes, BitVec.and_zero]

theorem formXK_mask (op : BitVec 4) (x : Reg) (kk : Byte) : formXK op x kk &&& 0xF000 = (op ++ 0#4 : BitVec 8) ++ 0#8 := by
  have h : (0xF000 : Word) = (BitVec.allOnes 4 ++ 0#4 : BitVec 8) ++ 0#8 := by decide
  rw [h, formXK, BitVec.and_append, BitVec.and_append, BitVec.and_allOnes, BitVec.and_zero, BitVec.and_zero]

theorem formXK_mask_key (op : BitVec 4) (x : Reg) (kk : Byte) : formXK op x kk &&& 0xF0FF = (op ++ 0#4 : BitVec 8) ++ kk := by
  have h : (0xF0FF : Word) = (BitVec.allOnes 4 ++ 0#4 : BitVec 8) ++ BitVec.allOnes 8 := by decide
  rw [h, formXK, BitVec.and_append, BitVec.and_append, BitVec.and_allOnes, BitVec.and_zero, BitVec.and_allOnes]

theorem formXY_mask (op : BitVec 4) (x y : Reg) (n : BitVec 4) :
    formXY op x y n &&& 0xF000 = (op ++ 0#4 : BitVec 8) ++ (0#4 ++ 0#4 : BitVec 8) := by
  have h : (0xF000 : Word) = (BitVec.allOnes 4 ++ 0#4 : BitVec 8) ++ (0#4 ++ 0#4 : BitVec 8) := by decide
  rw [h, formXY, BitVec.and_append, BitVec.and_append, BitVec.and_append, BitVec.and_allOnes, BitVec.and_zero,
    BitVec.and_zero, BitVec.and_zero]

theorem formXY_mask_key (op : BitVec 4) (x y : Reg) (n : BitVec 4) :
    formXY op x y n &&& 0xF00F = (op ++ 0#4 : BitVec 8) ++ (0#4 ++ n : BitVec 8) := by
  have h : (0xF00F : Word) = (BitVec.allOnes 4 ++ 0#4 : BitVec 8) ++ (0#4 ++ BitVec.allOnes 4 : BitVec 8) := by decide
  rw [h, formXY, BitVec.and_append, BitVec.and_append, BitVec.and_append, BitVec.and_allOnes, BitVec.and_zero,
    BitVec.and_zero, BitVec.and_allOnes]

end Sys2Proof
end

