-- ==== Sys2Proof/Laws/Display.lean ====
section
/-! SUPPORT. The display: what a flip, a clear and a run of flips do to every pixel, and which pixels a sprite has. -/

namespace Sys2Proof.Machine

@[simp] theorem pixel_clear (px : Fin 64) (py : Fin 32) : Display.clear.pixel px py = false := by
  simp [Display.pixel, Display.clear]

/-- A flip turns its pixel over and no other. -/
theorem pixel_flip (d : Display) (px qx : Fin 64) (py qy : Fin 32) :
    (d.flip px py).pixel qx qy = (d.pixel qx qy ^^ decide (qx = px ∧ qy = py)) := by
  unfold Display.pixel Display.flip
  by_cases hy : qy = py
  · subst hy
    have : (1#64 <<< px.val).getLsbD qx.val = decide (qx = px) := by
      rw [BitVec.getLsbD_shiftLeft, BitVec.getLsbD_one]
      have := qx.isLt
      have := px.isLt
      by_cases h : qx = px
      · subst h; simp
      · have : qx.val ≠ px.val := fun e => h (Fin.ext e)
        simp [h]; omega
    simp only [Fin.getElem_fin, Vector.getElem_set_self, BitVec.getLsbD_xor, this, and_true]
  · have : py.val ≠ qy.val := fun e => hy (Fin.ext e.symm)
    simp [this, hy]

/-- Displays with equal pixels are equal. -/
theorem display_ext {d e : Display} (h : ∀ px py, d.pixel px py = e.pixel px py) : d = e := by
  apply Vector.ext
  intro i hi
  apply BitVec.eq_of_getLsbD_eq
  intro j hj
  exact h ⟨j, hj⟩ ⟨i, hi⟩

/-- A run of flips turns over exactly its pixels, where none comes twice. -/
theorem pixel_drawPixels (d : Display) (hit : Bool) (ps : List (Fin 64 × Fin 32)) (hn : ps.Nodup) (qx : Fin 64) (qy : Fin 32) :
    (drawPixels d hit ps).1.pixel qx qy = (d.pixel qx qy ^^ decide ((qx, qy) ∈ ps)) := by
  induction ps generalizing d hit with
  | nil => simp [drawPixels]
  | cons p ps ih =>
    obtain ⟨px, py⟩ := p
    rw [drawPixels, ih _ _ (List.nodup_cons.mp hn).2, pixel_flip]
    have hp := (List.nodup_cons.mp hn).1
    by_cases h : (qx, qy) = (px, py)
    · obtain ⟨rfl, rfl⟩ := Prod.mk.inj h
      simp [hp]
    · have h' : ¬ (qx = px ∧ qy = py) := fun e => h (by rw [e.1, e.2])
      simp [List.mem_cons, h, h']

/-- The collision is noted exactly when one of the pixels was on, where none comes twice. -/
theorem hit_drawPixels (d : Display) (hit : Bool) (ps : List (Fin 64 × Fin 32)) (hn : ps.Nodup) :
    (drawPixels d hit ps).2 = (hit || ps.any fun p => d.pixel p.1 p.2) := by
  induction ps generalizing d hit with
  | nil => simp [drawPixels]
  | cons p ps ih =>
    obtain ⟨px, py⟩ := p
    rw [drawPixels, ih _ _ (List.nodup_cons.mp hn).2]
    have hp := (List.nodup_cons.mp hn).1
    have : (ps.any fun p => (d.flip px py).pixel p.1 p.2) = ps.any fun p => d.pixel p.1 p.2 := by
      rw [Bool.eq_iff_iff]
      simp only [List.any_eq_true]
      refine exists_congr fun q => and_congr_right fun hq => ?_
      have : ¬ (q.1 = px ∧ q.2 = py) := fun e => hp (by rw [← e.1, ← e.2]; exact hq)
      simp [pixel_flip, this]
    rw [this, List.any_cons, Bool.or_assoc]

/-- A pixel a sprite row sets. -/
theorem mem_spriteRowPixels {bx : Nat} {row : Byte} {py qy : Fin 32} {qx : Fin 64} :
    (qx, qy) ∈ spriteRowPixels bx row py ↔ qy = py ∧ ∃ c < 8, row.getLsbD (7 - c) = true ∧ qx.val = (bx + c) % 64 := by
  simp only [spriteRowPixels, List.mem_filterMap, List.mem_range]
  constructor
  · rintro ⟨c, hc, h⟩
    split at h
    · next hb => cases h; exact ⟨rfl, c, hc, hb, rfl⟩
    · cases h
  · rintro ⟨rfl, c, hc, hb, hx⟩
    exact ⟨c, hc, by rw [if_pos hb]; congr 2; exact Fin.ext hx.symm⟩

/-- A pixel a sprite sets. -/
theorem mem_spritePixels {bx by_ : Nat} {rows : List Byte} {qx : Fin 64} {qy : Fin 32} :
    (qx, qy) ∈ spritePixels bx by_ rows ↔
      ∃ r, ∃ h : r < rows.length, qy.val = (by_ + r) % 32 ∧
        ∃ c < 8, (rows[r]).getLsbD (7 - c) = true ∧ qx.val = (bx + c) % 64 := by
  induction rows generalizing by_ with
  | nil => simp [spritePixels]
  | cons row rows ih =>
    rw [spritePixels, List.mem_append, mem_spriteRowPixels, ih]
    constructor
    · rintro (⟨rfl, hc⟩ | ⟨r, hr, hy, hc⟩)
      · exact ⟨0, by simp, rfl, hc⟩
      · exact ⟨r + 1, by simpa using hr, by rw [hy]; congr 1; omega, hc⟩
    · rintro ⟨r, hr, hy, hc⟩
      cases r with
      | zero => exact .inl ⟨Fin.ext hy, hc⟩
      | succ r => exact .inr ⟨r, by simpa using hr, by rw [hy]; congr 1; omega, hc⟩

/-- The columns of one row are distinct pixels (8 <= 64). -/
theorem nodup_spriteRowPixels (bx : Nat) (row : Byte) (py : Fin 32) : (spriteRowPixels bx row py).Nodup := by
  rw [spriteRowPixels, List.Nodup, List.pairwise_filterMap]
  refine (List.pairwise_lt_range (n := 8)).imp_of_mem fun {c c'} hc hc' hlt p hp p' hp' e => ?_
  simp only [List.mem_range] at hc hc'
  split at hp <;> cases hp
  split at hp' <;> cases hp'
  have := congrArg (fun q : Fin 64 × Fin 32 => q.1.val) e
  simp only [Fin.val_ofNat] at this
  omega

/-- The pixels of a sprite of at most 32 rows are distinct. -/
theorem nodup_spritePixels (bx by_ : Nat) (rows : List Byte) (h : rows.length ≤ 32) : (spritePixels bx by_ rows).Nodup := by
  induction rows generalizing by_ with
  | nil => exact List.nodup_nil
  | cons row rows ih =>
    have hl : rows.length + 1 ≤ 32 := h
    rw [spritePixels, List.nodup_append]
    refine ⟨nodup_spriteRowPixels _ _ _, ih _ (by omega), fun p hp q hq e => ?_⟩
    subst e
    obtain ⟨hy, -⟩ := mem_spriteRowPixels.mp hp
    obtain ⟨r, hr, hy', -⟩ := mem_spritePixels.mp hq
    rw [hy, Fin.val_ofNat] at hy'
    omega

/-- The pixels of `DRW Vx, Vy, n` (44_drawing.md R190). -/
theorem mem_drwPixels {s : State} {x y : Reg} {n : Nat} {qx : Fin 64} {qy : Fin 32} :
    (qx, qy) ∈ drwPixels s x y n ↔
      ∃ r < n, ∃ c < 8, (s.memRead (s.index.toNat + r)).getLsbD (7 - c) = true ∧
        qx.val = ((s.getV x).toNat + c) % 64 ∧ qy.val = ((s.getV y).toNat + r) % 32 := by
  simp only [drwPixels, mem_spritePixels, State.memReadList, List.length_map, List.length_range, List.getElem_map,
    List.getElem_range, exists_prop, Nat.mod_add_mod]
  constructor
  · rintro ⟨r, hr, hy, c, hc, hb, hx⟩; exact ⟨r, hr, c, hc, hb, hx, hy⟩
  · rintro ⟨r, hr, c, hc, hb, hx, hy⟩; exact ⟨r, hr, hy, c, hc, hb, hx⟩

/-- No pixel is touched twice by one `DRW` (R190: at most 15 rows). -/
theorem nodup_drwPixels (s : State) (x y : Reg) {n : Nat} (h : n ≤ 32) : (drwPixels s x y n).Nodup :=
  nodup_spritePixels _ _ _ (by simpa [State.memReadList] using h)

end Sys2Proof.Machine
end

