-- ==== Sys2Proof/Laws/Memory.lean ====
section
/-! SUPPORT. Memory: reads after writes, the canonical form, and that equal contents are equal lists. -/

namespace Sys2Proof.Machine

theorem cellOf_lt (a : Nat) : cellOf a < memSize := Nat.mod_lt _ (by decide)

theorem cellOf_of_lt {a : Nat} (h : a < memSize) : cellOf a = a := Nat.mod_eq_of_lt h

@[simp] theorem cellOf_cellOf (a : Nat) : cellOf (cellOf a) = cellOf a := Nat.mod_mod _ _

/-- Two of at most 4096 consecutive addresses never reduce to one cell (20_memory.md R63). -/
theorem cellOf_add_inj {a j k : Nat} (hj : j < memSize) (hk : k < memSize) (h : cellOf (a + j) = cellOf (a + k)) :
    j = k := by
  simp only [cellOf, memSize] at *
  omega

theorem wf_nil : Memory.wf [] := by simp [Memory.wf]

theorem wf_tail {c : Host.Cell} {m : Memory} (h : Memory.wf (c :: m)) : Memory.wf m :=
  ⟨(List.pairwise_cons.mp h.1).2, fun d hd => h.2 d (List.mem_cons_of_mem _ hd)⟩

/-- A cell below every listed address reads as the baseline. -/
theorem read_below {m : Memory} {a : Nat} (h : ∀ c ∈ m, a < c.1) : m.read a = Memory.baseline a := by
  induction m with
  | nil => rfl
  | cons c m ih =>
    have hc := h c (by simp)
    rw [Memory.read, if_neg (by omega)]
    exact ih fun d hd => h d (List.mem_cons_of_mem _ hd)

theorem below_of_wf {c : Host.Cell} {m : Memory} (h : Memory.wf (c :: m)) {a : Nat} (ha : a ≤ c.1) :
    ∀ d ∈ m, a < d.1 := fun d hd => by
  have := (List.pairwise_cons.mp h.1).1 d hd
  omega

theorem read_cons (a : Nat) (b : Byte) (m : Memory) (h : ∀ c ∈ m, a < c.1) (c : Nat) :
    (Memory.cons a b m).read c = if c = a then b else m.read c := by
  unfold Memory.cons
  split
  · next hb =>
    split
    · next hc => subst hc; rw [read_below h, hb]
    · rfl
  · rw [Memory.read]; simp only [eq_comm]

theorem wf_cons {a : Nat} {b : Byte} {m : Memory} (hm : Memory.wf m) (ha : a < memSize) (h : ∀ c ∈ m, a < c.1) :
    Memory.wf (Memory.cons a b m) := by
  unfold Memory.cons
  split
  · exact hm
  · next hb =>
    refine ⟨List.pairwise_cons.mpr ⟨h, hm.1⟩, fun c hc => ?_⟩
    rcases List.mem_cons.mp hc with rfl | hc
    · exact ⟨ha, hb⟩
    · exact hm.2 c hc

/-- An address listed after a write was listed before it or is the one written. -/
theorem mem_write {m : Memory} {a : Nat} {b : Byte} {c : Host.Cell} (h : c ∈ m.write a b) : c ∈ m ∨ c.1 = a := by
  have hcons : ∀ {m' : Memory}, c ∈ Memory.cons a b m' → c ∈ m' ∨ c.1 = a := by
    intro m' h'
    unfold Memory.cons at h'
    split at h'
    · exact .inl h'
    · rcases List.mem_cons.mp h' with rfl | h'
      · exact .inr rfl
      · exact .inl h'
  induction m with
  | nil => exact hcons h
  | cons d m ih =>
    rw [Memory.write] at h
    split at h
    · exact hcons h
    · split at h
      · exact (hcons h).imp (List.mem_cons_of_mem _) id
      · rcases List.mem_cons.mp h with rfl | h
        · exact .inl (by simp)
        · exact (ih h).imp (List.mem_cons_of_mem _) id

/-- `M[a] <- b` sets `M[a]` and no other cell (20_memory.md R57). -/
theorem read_write {m : Memory} (hm : Memory.wf m) (a : Nat) (b : Byte) (c : Nat) :
    (m.write a b).read c = if c = a then b else m.read c := by
  induction m with
  | nil => exact read_cons a b [] (by simp) c
  | cons d m ih =>
    rw [Memory.write]
    split
    · next hlt =>
      refine read_cons a b _ (fun e he => ?_) c
      rcases List.mem_cons.mp he with rfl | he
      · exact hlt
      · exact below_of_wf hm (by omega) e he
    · split
      · next heq =>
        rw [read_cons a b m (below_of_wf hm (by omega)) c]
        split
        · rfl
        · next hc => rw [Memory.read, if_neg (by omega)]
      · next hne =>
        rw [Memory.read, ih (wf_tail hm), Memory.read]
        split
        · next hdc => rw [if_neg (by omega)]
        · rfl

/-- A write keeps the canonical form. -/
theorem wf_write {m : Memory} (hm : Memory.wf m) {a : Nat} (ha : a < memSize) (b : Byte) : Memory.wf (m.write a b) := by
  induction m with
  | nil => exact wf_cons wf_nil ha (by simp)
  | cons d m ih =>
    rw [Memory.write]
    split
    · next hlt =>
      refine wf_cons hm ha fun e he => ?_
      rcases List.mem_cons.mp he with rfl | he
      · exact hlt
      · exact below_of_wf hm (by omega) e he
    · split
      · next heq => exact wf_cons (wf_tail hm) ha (below_of_wf hm (by omega))
      · next hlt hne =>
        have hw := ih (wf_tail hm)
        refine ⟨List.pairwise_cons.mpr ⟨fun e he => ?_, hw.1⟩, fun e he => ?_⟩
        · rcases mem_write he with he | he
          · exact (List.pairwise_cons.mp hm.1).1 e he
          · omega
        · rcases List.mem_cons.mp he with rfl | he
          · exact hm.2 _ (by simp)
          · exact hw.2 e he

/-- Every bulk write keeps the canonical form. -/
theorem wf_writeFrom {m : Memory} (hm : Memory.wf m) (a : Nat) (bs : List Byte) : Memory.wf (m.writeFrom a bs) := by
  induction bs generalizing m a with
  | nil => exact hm
  | cons b bs ih => exact ih (wf_write hm (cellOf_lt a) b) (a + 1)

/-- A cell none of the written addresses reaches reads as before. -/
theorem read_writeFrom_outside {m : Memory} (hm : Memory.wf m) (a : Nat) (bs : List Byte) (c : Nat)
    (h : ∀ k < bs.length, cellOf (a + k) ≠ c) : (m.writeFrom a bs).read c = m.read c := by
  induction bs generalizing m a with
  | nil => rfl
  | cons b bs ih =>
    rw [Memory.writeFrom, ih (wf_write hm (cellOf_lt a) b) (a + 1) fun k hk => ?_, read_write hm, if_neg]
    · exact fun e => h 0 (by simp) e.symm
    · have := h (k + 1) (by simpa using hk)
      rwa [show a + 1 + k = a + (k + 1) by omega]

/-- The `k`-th written byte is what its cell then holds. -/
theorem read_writeFrom_inside {m : Memory} (hm : Memory.wf m) (a : Nat) (bs : List Byte) (hlen : bs.length ≤ memSize)
    (k : Nat) (hk : k < bs.length) : (m.writeFrom a bs).read (cellOf (a + k)) = bs[k] := by
  induction bs generalizing m a k with
  | nil => simp at hk
  | cons b bs ih =>
    have hw := wf_write hm (cellOf_lt a) b
    have hl : bs.length + 1 ≤ memSize := hlen
    cases k with
    | zero =>
      rw [Memory.writeFrom, read_writeFrom_outside hw, read_write hm]
      · simp
      · intro j hj e
        have := cellOf_add_inj (a := a) (j := j + 1) (k := 0) (by omega) (by decide)
          (by rw [← e]; congr 1; omega)
        omega
    | succ k =>
      rw [Memory.writeFrom, show a + (k + 1) = a + 1 + k by omega, ih hw (a + 1) (by omega) k (by simpa using hk)]
      rfl

/-- The byte read at `c` after a bulk write, in terms of the state. -/
theorem memRead_memWriteList_outside {s : State} (hm : Memory.wf s.mem) (a : Nat) (bs : List Byte) (c : Nat)
    (h : ∀ k < bs.length, cellOf (a + k) ≠ cellOf c) : (s.memWriteList a bs).memRead c = s.memRead c :=
  read_writeFrom_outside hm a bs _ h

theorem memRead_memWriteList_inside {s : State} (hm : Memory.wf s.mem) (a : Nat) (bs : List Byte)
    (hlen : bs.length ≤ memSize) (k : Nat) (hk : k < bs.length) :
    (s.memWriteList a bs).memRead (a + k) = bs[k] :=
  read_writeFrom_inside hm a bs hlen k hk

/-- An address a canonical memory does not list reads as the baseline. -/
theorem read_of_unlisted {m : Memory} {a : Nat} (h : ∀ c ∈ m, c.1 ≠ a) : m.read a = Memory.baseline a := by
  induction m with
  | nil => rfl
  | cons c m ih =>
    rw [Memory.read, if_neg (h c (by simp))]
    exact ih fun d hd => h d (List.mem_cons_of_mem _ hd)

/-- Canonical memories with equal contents are equal lists. -/
theorem memory_ext {m m' : Memory} (hm : Memory.wf m) (hm' : Memory.wf m') (h : ∀ a, m.read a = m'.read a) : m = m' := by
  have first : ∀ {c : Host.Cell} {l : Memory}, Memory.wf (c :: l) → Memory.read (c :: l) c.1 ≠ Memory.baseline c.1 := by
    intro c l hl
    rw [Memory.read, if_pos rfl]
    exact (hl.2 c (by simp)).2
  induction m generalizing m' with
  | nil =>
    cases m' with
    | nil => rfl
    | cons d m' => exact absurd (h d.1).symm (first hm')
  | cons c m ih =>
    cases m' with
    | nil => exact absurd (h c.1) (first hm)
    | cons d m' =>
      have hcd : c.1 = d.1 := by
        rcases Nat.lt_trichotomy c.1 d.1 with hlt | heq | hgt
        · refine absurd ((h c.1).trans (read_below fun e he => ?_)) (first hm)
          rcases List.mem_cons.mp he with rfl | he
          · exact hlt
          · exact below_of_wf hm' (by omega) e he
        · exact heq
        · refine absurd ((h d.1).symm.trans (read_below fun e he => ?_)) (first hm')
          rcases List.mem_cons.mp he with rfl | he
          · exact hgt
          · exact below_of_wf hm (by omega) e he
      have hb : c.2 = d.2 := by
        have := h c.1
        rwa [Memory.read, if_pos rfl, Memory.read, if_pos hcd.symm] at this
      have hrest : ∀ a, Memory.read m a = Memory.read m' a := by
        intro a
        have := h a
        by_cases ha : c.1 = a
        · rw [read_below (below_of_wf hm (by omega)), read_below (below_of_wf hm' (by omega))]
        · rwa [Memory.read, if_neg ha, Memory.read, if_neg (by omega)] at this
      rw [ih (wf_tail hm) (wf_tail hm') hrest, Prod.ext hcd hb]

/-- Reset memory is canonical. -/
theorem reset_memory_wf : Memory.wf State.reset.mem := wf_nil

end Sys2Proof.Machine
end

