-- ==== Sys2Proof/Laws/PerInstr.lean ====
section
/-! SUPPORT. Facts that hold of every instruction as syntax, one lemma per constructor. -/

/-- The encoded word has the bits its row of spec/opcode_table.json fixes. -/
def Sys2Proof.Laws.FixedBits.Statement (i : Sys2Proof.Instr) : Prop :=
  Sys2Proof.encodeWord i &&& Sys2Proof.rowMask i = Sys2Proof.rowMatch i

namespace Sys2Proof.Laws.FixedBits

theorem cls : Statement (.cls) :=
  (formXK_mask_key _ _ _).trans rfl
theorem ret : Statement (.ret) :=
  (formXK_mask_key _ _ _).trans rfl
theorem jp (nnn : BitVec 12) : Statement (.jp nnn) :=
  (formA_mask _ _).trans rfl
theorem call (nnn : BitVec 12) : Statement (.call nnn) :=
  (formA_mask _ _).trans rfl
theorem seImm (x : Reg) (kk : Byte) : Statement (.seImm x kk) :=
  (formXK_mask _ _ _).trans rfl
theorem sneImm (x : Reg) (kk : Byte) : Statement (.sneImm x kk) :=
  (formXK_mask _ _ _).trans rfl
theorem seReg (x y : Reg) : Statement (.seReg x y) :=
  (formXY_mask _ _ _ _).trans rfl
theorem ldImm (x : Reg) (kk : Byte) : Statement (.ldImm x kk) :=
  (formXK_mask _ _ _).trans rfl
theorem addImm (x : Reg) (kk : Byte) : Statement (.addImm x kk) :=
  (formXK_mask _ _ _).trans rfl
theorem ldReg (x y : Reg) : Statement (.ldReg x y) :=
  (formXY_mask_key _ _ _ _).trans rfl
theorem orReg (x y : Reg) : Statement (.orReg x y) :=
  (formXY_mask_key _ _ _ _).trans rfl
theorem andReg (x y : Reg) : Statement (.andReg x y) :=
  (formXY_mask_key _ _ _ _).trans rfl
theorem xorReg (x y : Reg) : Statement (.xorReg x y) :=
  (formXY_mask_key _ _ _ _).trans rfl
theorem addReg (x y : Reg) : Statement (.addReg x y) :=
  (formXY_mask_key _ _ _ _).trans rfl
theorem sub (x y : Reg) : Statement (.sub x y) :=
  (formXY_mask_key _ _ _ _).trans rfl
theorem shr (x y : Reg) : Statement (.shr x y) :=
  (formXY_mask_key _ _ _ _).trans rfl
theorem subn (x y : Reg) : Statement (.subn x y) :=
  (formXY_mask_key _ _ _ _).trans rfl
theorem shl (x y : Reg) : Statement (.shl x y) :=
  (formXY_mask_key _ _ _ _).trans rfl
theorem sneReg (x y : Reg) : Statement (.sneReg x y) :=
  (formXY_mask _ _ _ _).trans rfl
theorem ldI (nnn : BitVec 12) : Statement (.ldI nnn) :=
  (formA_mask _ _).trans rfl
theorem jpV0 (nnn : BitVec 12) : Statement (.jpV0 nnn) :=
  (formA_mask _ _).trans rfl
theorem rnd (x : Reg) (kk : Byte) : Statement (.rnd x kk) :=
  (formXK_mask _ _ _).trans rfl
theorem drw (x y : Reg) (n : Nat) : Statement (.drw x y n) :=
  (formXY_mask _ _ _ _).trans rfl
theorem skp (x : Reg) : Statement (.skp x) :=
  (formXK_mask_key _ _ _).trans rfl
theorem sknp (x : Reg) : Statement (.sknp x) :=
  (formXK_mask_key _ _ _).trans rfl
theorem ldVxDt (x : Reg) : Statement (.ldVxDt x) :=
  (formXK_mask_key _ _ _).trans rfl
theorem ldVxK (x : Reg) : Statement (.ldVxK x) :=
  (formXK_mask_key _ _ _).trans rfl
theorem ldDtVx (x : Reg) : Statement (.ldDtVx x) :=
  (formXK_mask_key _ _ _).trans rfl
theorem ldStVx (x : Reg) : Statement (.ldStVx x) :=
  (formXK_mask_key _ _ _).trans rfl
theorem addI (x : Reg) : Statement (.addI x) :=
  (formXK_mask_key _ _ _).trans rfl
theorem ldF (x : Reg) : Statement (.ldF x) :=
  (formXK_mask_key _ _ _).trans rfl
theorem ldB (x : Reg) : Statement (.ldB x) :=
  (formXK_mask_key _ _ _).trans rfl
theorem ldIVx (x : Reg) : Statement (.ldIVx x) :=
  (formXK_mask_key _ _ _).trans rfl
theorem ldVxI (x : Reg) : Statement (.ldVxI x) :=
  (formXK_mask_key _ _ _).trans rfl

end Sys2Proof.Laws.FixedBits
end

