-- ==== Sys2Proof/Tests/Slice0.lean ====
section
/-! SUPPORT. The model's own tests. Every expected value is taken from spec/95_test_vectors.md (its vector is named) or worked by
hand from the rule named. Each step test starts from the reset state changed as the vector's "given" column says. -/

namespace Sys2Proof.Tests

open Sys2Proof.Machine

/-- One step on `s` with the word `w` where it fetches, and a check of the state it gives. -/
def after (s : State) (w : Nat) (p : State → Bool) : Bool :=
  match step (s.withFetchWord 16 w) with
  | .next t => p t
  | .fault _ => false
  | .refused _ => false

/-- The reset state under `OOB_POLICY = fault`. -/
def strict : State := { State.reset with cfg := { Config.spec with oobPolicy := .fault } }

/-- The reset state under `SHIFT_SOURCE = Vy`. -/
def shiftVy : State := { State.reset with cfg := { Config.spec with shiftSource := .vy } }

/-- The reset state with bytes stored at `a`. -/
def stored (a : Nat) (bs : List Byte) (s : State := State.reset) : State := s.memWriteList a bs

/-- The set pixels of a display, row by row. -/
def lit (d : Display) : List (Nat × Nat) :=
  (List.finRange 32).flatMap fun y => (List.finRange 64).filterMap fun x =>
    if d.pixel x y then some (x.val, y.val) else none

/-! ## Well-formedness: the one check, refused -/

theorem test_wellFormed_refuses_drw_of_16_rows : (Instr.drw 0 0 16).wellFormed = false := by decide

theorem test_wellFormed_takes_drw_of_15_rows : (Instr.drw 0 0 15).wellFormed = true := by decide

/-! ## Decoding: a word of every constructor, its bits written out from the pattern of R83, R86 to R89 -/

theorem test_decode_system :
    decodeTableWord 16 0b0000_0000_1110_0000 = some .cls ∧ decodeTableWord 16 0b0000_0000_1110_1110 = some .ret := by decide

theorem test_decode_addresses :
    decodeTableWord 16 0b0001_0010_0011_0100 = some (.jp 0x234) ∧ decodeTableWord 16 0b0010_0011_0000_0000 = some (.call 0x300) ∧
    decodeTableWord 16 0b1010_0010_1111_0000 = some (.ldI 0x2F0) ∧ decodeTableWord 16 0b1011_1111_0000_0001 = some (.jpV0 0xF01) := by
  decide

theorem test_decode_immediates :
    decodeTableWord 16 0b0011_0011_0001_0000 = some (.seImm 3 0x10) ∧ decodeTableWord 16 0b0100_0011_0001_0001 = some (.sneImm 3 0x11) ∧
    decodeTableWord 16 0b0110_1010_0000_0010 = some (.ldImm 10 2) ∧ decodeTableWord 16 0b0111_0001_1111_1111 = some (.addImm 1 0xFF) ∧
    decodeTableWord 16 0b1100_0011_0000_1111 = some (.rnd 3 0x0F) := by decide

theorem test_decode_registers :
    decodeTableWord 16 0b0101_0001_0010_0000 = some (.seReg 1 2) ∧ decodeTableWord 16 0b1001_0001_0010_0000 = some (.sneReg 1 2) ∧
    decodeTableWord 16 0b1101_1010_1011_0101 = some (.drw 10 11 5) := by decide

theorem test_decode_alu :
    decodeTableWord 16 0b1000_0001_0010_0000 = some (.ldReg 1 2) ∧ decodeTableWord 16 0b1000_0001_0010_0001 = some (.orReg 1 2) ∧
    decodeTableWord 16 0b1000_0001_0010_0010 = some (.andReg 1 2) ∧ decodeTableWord 16 0b1000_0001_0010_0011 = some (.xorReg 1 2) ∧
    decodeTableWord 16 0b1000_0000_0001_0100 = some (.addReg 0 1) ∧ decodeTableWord 16 0b1000_0001_0010_0101 = some (.sub 1 2) ∧
    decodeTableWord 16 0b1000_0001_0010_0110 = some (.shr 1 2) ∧ decodeTableWord 16 0b1000_0001_0010_0111 = some (.subn 1 2) ∧
    decodeTableWord 16 0b1000_0001_0010_1110 = some (.shl 1 2) := by decide

theorem test_decode_keySkip :
    decodeTableWord 16 0b1110_0101_1001_1110 = some (.skp 5) ∧ decodeTableWord 16 0b1110_0101_1010_0001 = some (.sknp 5) := by decide

theorem test_decode_misc :
    decodeTableWord 16 0b1111_0010_0000_0111 = some (.ldVxDt 2) ∧ decodeTableWord 16 0b1111_0011_0000_1010 = some (.ldVxK 3) ∧
    decodeTableWord 16 0b1111_0100_0001_0101 = some (.ldDtVx 4) ∧ decodeTableWord 16 0b1111_0100_0001_1000 = some (.ldStVx 4) ∧
    decodeTableWord 16 0b1111_0010_0001_1110 = some (.addI 2) ∧ decodeTableWord 16 0b1111_0001_0010_1001 = some (.ldF 1) ∧
    decodeTableWord 16 0b1111_0011_0011_0011 = some (.ldB 3) ∧ decodeTableWord 16 0b1111_0010_0101_0101 = some (.ldIVx 2) ∧
    decodeTableWord 16 0b1111_0001_0110_0101 = some (.ldVxI 1) := by decide

/-- Ignored bits (R95): 0x03E0 is `CLS`, 0x01EE is `RET`, 0x5121 is `SE V1, V2`, 0x9121 is `SNE V1, V2`. -/
theorem test_decode_ignored_bits :
    decodeTableWord 16 0x03E0 = some .cls ∧ decodeTableWord 16 0x01EE = some .ret ∧
    decodeTableWord 16 0x5121 = some (.seReg 1 2) ∧ decodeTableWord 16 0x9121 = some (.sneReg 1 2) := by decide

/-- Unmapped words, rejected by the name of their family (R94). -/
theorem test_decode_unmapped :
    decodeWord 0x0123 = .unmapped (.systemKey 0x23) ∧ decodeWord 0x800F = .unmapped (.aluKey 0xF) ∧
    decodeWord 0xE09F = .unmapped (.keySkipKey 0x9F) ∧ decodeWord 0xF0FF = .unmapped (.miscKey 0xFF) := by decide

/-- A byte string too short for an instruction, and one with bytes to spare (R80). -/
theorem test_decode_bytes :
    decode [] = .truncated ∧ decode [0x6A] = .truncated ∧ decode [0x6A, 0x02, 0x99] = .insn (.ldImm 10 2) [0x99] := by decide

/-- The encodings the source itself gives (R82). -/
theorem test_encode_source_words :
    encode (.ldImm 10 2) = [0x6A, 0x02] ∧ encode (.addReg 0 1) = [0x80, 0x14] ∧ encode .cls = [0x00, 0xE0] ∧
    encode (.ldVxK 3) = [0xF3, 0x0A] := by decide

/-! ## Fetch, no-op and the cycle (T1) -/

/-- T1.2, T1.6: 0x0000 and 0x0123 are no-ops, and the timers count. -/
theorem test_nop : after (((State.reset.setDT 3).setST 1).setV 1 7) 0x0000 (fun t => decide (t.pc = 0x202 ∧ t.dt = 2 ∧ t.st = 0 ∧ t.getV 1 = 7)) ∧
    after (State.reset.setDT 3) 0x0123 (fun t => decide (t.pc = 0x202 ∧ t.dt = 2)) := by decide

/-- T1.12: a fetch at 0xFFF wraps, `pc` is not reduced to 12 bits. -/
theorem test_fetch_wraps : after (State.reset.jump 0xFFF) 0x6012 (fun t => decide (t.getV 0 = 0x12 ∧ t.pc = 0x1001)) := by decide

/-- T1.14: the same fetch under `OOB_POLICY = fault`. -/
theorem test_fetch_faults : step (strict.jump 0xFFF) =
    .next { strict.jump 0xFFF with faulted := true, reports := [.boundsFault .mem 0x1000] } := by rfl

/-- T1.15: a faulted core does nothing more. -/
theorem test_faulted_core_stops : step { strict with faulted := true } = .fault .coreFaulted := by rfl

/-- T1.16: an odd `pc` fetches normally. -/
theorem test_fetch_odd : after (State.reset.jump 0x201) 0x6A02 (fun t => decide (t.getV 10 = 2 ∧ t.pc = 0x203)) := by decide

/-! ## Control flow (T2) -/

theorem test_jp : after State.reset 0x1234 (fun t => decide (t.pc = 0x234)) := by decide

/-- T2.3 and T2.4: the first and the sixteenth push. -/
theorem test_call : after State.reset 0x2300 (fun t => decide (t.stack[0] = 0x202 ∧ t.sp = 1 ∧ t.pc = 0x300)) ∧
    after { State.reset with sp := 15 } 0x2300 (fun t => decide (t.stack[15] = 0x202 ∧ t.sp = 16 ∧ t.pc = 0x300)) := by decide

/-- T2.5. -/
theorem test_call_overflow : after ({ State.reset with sp := 16 }.setDT 2) 0x2300
    (fun t => decide (t.reports = [.stackOverflow] ∧ t.pc = 0 ∧ t.sp = 16 ∧ t.stack = State.reset.stack ∧ t.dt = 1)) := by decide

/-- T2.6. -/
theorem test_ret : after ({ State.reset with sp := 1, stack := State.reset.stack.set 0 0x202 }.jump 0x300) 0x00EE
    (fun t => decide (t.sp = 0 ∧ t.pc = 0x202)) := by decide

/-- T2.8. -/
theorem test_ret_underflow : after (State.reset.setST 2) 0x00EE
    (fun t => decide (t.reports = [.stackUnderflow] ∧ t.pc = 0 ∧ t.sp = 0 ∧ t.st = 1)) := by decide

/-- T2.10, T2.11. -/
theorem test_seImm : after (State.reset.setV 3 0x10) 0x3310 (fun t => decide (t.pc = 0x204)) ∧
    after (State.reset.setV 3 0x10) 0x3311 (fun t => decide (t.pc = 0x202)) := by decide

/-- T2.13, T2.14. -/
theorem test_sneImm : after (State.reset.setV 3 0x10) 0x4310 (fun t => decide (t.pc = 0x202)) ∧
    after (State.reset.setV 3 0x10) 0x4311 (fun t => decide (t.pc = 0x204)) := by decide

/-- T2.15, T2.16. -/
theorem test_seReg : after ((State.reset.setV 1 7).setV 2 8) 0x5120 (fun t => decide (t.pc = 0x202)) ∧
    after ((State.reset.setV 1 4).setV 2 4) 0x5121 (fun t => decide (t.pc = 0x204)) := by decide

/-- T2.18, T2.19. -/
theorem test_sneReg : after ((State.reset.setV 1 7).setV 2 7) 0x9120 (fun t => decide (t.pc = 0x202)) ∧
    after ((State.reset.setV 1 4).setV 2 5) 0x9121 (fun t => decide (t.pc = 0x204)) := by decide

/-- T2.21, T2.23. -/
theorem test_jpV0 : after (State.reset.setV 0 4) 0xB300 (fun t => decide (t.pc = 0x304)) ∧
    after (State.reset.setV 0 0xFF) 0xBF01 (fun t => decide (t.pc = 0x1000)) := by decide

/-! ## Moves and arithmetic (T3) -/

/-- W1. -/
theorem test_ldImm : after State.reset 0x6A02 (fun t => decide (t.getV 10 = 2 ∧ t.pc = 0x202)) := by decide

/-- T3.1, T3.2. -/
theorem test_addImm : after (State.reset.setV VF 1) 0x7FFF (fun t => decide (t.getV VF = 0)) ∧
    after ((State.reset.setV 1 2).setV VF 0x33) 0x71FF (fun t => decide (t.getV 1 = 1 ∧ t.getV VF = 0x33)) := by decide

/-- T3.26. -/
theorem test_ldReg : after (State.reset.setV 2 0x99) 0x8120 (fun t => decide (t.getV 1 = 0x99)) := by decide

/-- T3.22. -/
theorem test_orReg : after (((State.reset.setV 1 0xF0).setV 2 0x0F).setV VF 0x55) 0x8121
    (fun t => decide (t.getV 1 = 0xFF ∧ t.getV VF = 0x55)) := by decide

/-- T3.23. -/
theorem test_andReg : after (((State.reset.setV 1 0xF0).setV 2 0x3C).setV VF 0x55) 0x8122
    (fun t => decide (t.getV 1 = 0x30 ∧ t.getV VF = 0x55)) := by decide

/-- T3.24, T3.25. -/
theorem test_xorReg : after (((State.reset.setV 1 0xFF).setV 2 0x0F).setV VF 0x55) 0x8123
      (fun t => decide (t.getV 1 = 0xF0 ∧ t.getV VF = 0x55)) ∧
    after ((State.reset.setV VF 0x0F).setV 2 0xFF) 0x8F23 (fun t => decide (t.getV VF = 0xF0)) := by decide

/-- W3, T3.12. -/
theorem test_addReg : after ((State.reset.setV 0 0xFF).setV 1 1) 0x8014 (fun t => decide (t.getV 0 = 0 ∧ t.getV VF = 1)) ∧
    after ((State.reset.setV 1 1).setV VF 0xFF) 0x81F4 (fun t => decide (t.getV 1 = 0 ∧ t.getV VF = 1)) := by decide

/-- T3.5: the flag overwrites the sum. -/
theorem test_addReg_into_VF : after ((State.reset.setV VF 0x80).setV 1 0x90) 0x8F14 (fun t => decide (t.getV VF = 1)) := by decide

/-- T3.6, T3.7. -/
theorem test_sub : after ((State.reset.setV 1 5).setV 2 5) 0x8125 (fun t => decide (t.getV 1 = 0 ∧ t.getV VF = 1)) ∧
    after (State.reset.setV 2 1) 0x8125 (fun t => decide (t.getV 1 = 0xFF ∧ t.getV VF = 0)) := by decide

/-- T3.9, T3.10. -/
theorem test_subn : after ((State.reset.setV 1 5).setV 2 5) 0x8127 (fun t => decide (t.getV 1 = 0 ∧ t.getV VF = 1)) ∧
    after ((State.reset.setV 1 7).setV 2 5) 0x8127 (fun t => decide (t.getV 1 = 0xFE ∧ t.getV VF = 0)) := by decide

/-- R159's example, T3.16. -/
theorem test_shr : after (State.reset.setV 1 5) 0x8106 (fun t => decide (t.getV 1 = 2 ∧ t.getV VF = 1)) ∧
    after (State.reset.setV VF 2) 0x8F06 (fun t => decide (t.getV VF = 0)) := by decide

/-- T3.20. -/
theorem test_shr_of_Vy : after (shiftVy.setV 2 3) 0x8126 (fun t => decide (t.getV 1 = 1 ∧ t.getV VF = 1 ∧ t.getV 2 = 3)) := by decide

/-- R161's example, T3.17. -/
theorem test_shl : after (State.reset.setV 1 0x81) 0x810E (fun t => decide (t.getV 1 = 2 ∧ t.getV VF = 1)) ∧
    after (State.reset.setV 1 0x7F) 0x810E (fun t => decide (t.getV 1 = 0xFE ∧ t.getV VF = 0)) := by decide

/-- T3.21. -/
theorem test_shl_of_Vy : after (shiftVy.setV 2 0x81) 0x812E (fun t => decide (t.getV 1 = 2 ∧ t.getV VF = 1 ∧ t.getV 2 = 0x81)) := by decide

/-! ## Index register and random (T4) -/

theorem test_ldI : after State.reset 0xA2F0 (fun t => decide (t.index = 0x2F0)) := by decide

/-- T4.2, T4.3. -/
theorem test_addI : after ((State.reset.setIndex 0xFFF).setV 2 1) 0xF21E (fun t => decide (t.index = 0x1000 ∧ t.getV VF = 0)) ∧
    after ((State.reset.setIndex 0xFFFF).setV 1 2) 0xF11E (fun t => decide (t.index = 1)) := by decide

/-- R256: two instances draw from two generators. -/
theorem test_rnd_of_another_instance : (exec (.rnd 3 0x0F) (State.reset.seedSource 1)) =
    .next { State.reset with v := State.reset.v.set 3 (Config.rand8 1 0 &&& 0x0F), draws := 1, generator := 1 } := by rfl

/-- T4.7 and R182: the register holds the free byte under the mask, and one byte is drawn. -/
theorem test_rnd : exec (.rnd 3 0x0F) State.reset =
    .next { State.reset with v := State.reset.v.set 3 (Config.rand8 0 0 &&& 0x0F), draws := 1 } := by rfl

/-! ## Drawing and clearing (T5, T9) -/

/-- T5.10: glyph 0 across both edges. -/
theorem test_drw_wraps : after (((State.reset.setIndex 0x50).setV 0 60).setV 1 30) 0xD015
    (fun t => decide (lit t.disp = [(60, 0), (63, 0), (60, 1), (63, 1), (60, 2), (61, 2), (62, 2), (63, 2),
      (60, 30), (61, 30), (62, 30), (63, 30), (60, 31), (63, 31)] ∧ t.getV VF = 0)) := by decide

/-- T5.3: a collision. -/
theorem test_drw_collides : after ((((stored 0x300 [0x80]).setIndex 0x300).setV 0 5).setV 1 7 |>.setDisp (Display.flip Display.clear 5 7)) 0xD011
    (fun t => decide (lit t.disp = [] ∧ t.getV VF = 1)) := by decide

/-- T5.9. -/
theorem test_drw_faults : after (strict.setIndex 0xFFF) 0xD012
    (fun t => decide (t.reports = [.boundsFault .mem 0x1000] ∧ t.faulted = true ∧ t.pc = 0x200 ∧ t.disp = Display.clear)) := by decide

/-- W2, T9.1. -/
theorem test_cls : after { State.reset.setV VF 1 with disp := Vector.replicate 32 (BitVec.allOnes 64) } 0x00E0
    (fun t => decide (t.disp = Display.clear ∧ t.getV VF = 1 ∧ t.pc = 0x202)) := by decide

/-! ## Keys (T6) -/

/-- A key matrix with the given keys down. -/
def down (ks : List Nat) : Vector Bool 16 := Vector.ofFn fun k => ks.contains k.val

/-- T6.1, T6.5. -/
theorem test_skp : after ((State.reset.setKeys (down [10])).setV 5 10) 0xE59E (fun t => decide (t.pc = 0x204)) ∧
    after ((State.reset.setKeys (down [2])).setV 1 0x12) 0xE19E (fun t => decide (t.pc = 0x204)) := by decide

/-- T6.6. -/
theorem test_skp_faults : after ((strict.setKeys (down [2])).setV 1 0x12) 0xE19E
    (fun t => decide (t.reports = [.boundsFault .key 0x12] ∧ t.faulted = true ∧ t.pc = 0x200)) := by decide

/-- T6.3, T6.4. -/
theorem test_sknp : after ((State.reset.setKeys (down [10])).setV 5 10) 0xE5A1 (fun t => decide (t.pc = 0x202)) ∧
    after (State.reset.setV 1 3) 0xE1A1 (fun t => decide (t.pc = 0x204)) := by decide

/-- T6.7. -/
theorem test_ldVxK_waits : after ((State.reset.setDT 4).setST 2) 0xF30A
    (fun t => decide (t.pc = 0x200 ∧ t.getV 3 = 0 ∧ t.dt = 3 ∧ t.st = 1)) := by decide

/-- T6.8. -/
theorem test_ldVxK_takes_lowest : after (State.reset.setKeys (down [6, 9])) 0xF30A (fun t => decide (t.getV 3 = 6 ∧ t.pc = 0x202)) := by decide

/-! ## Timers (T7) -/

/-- T7.1. -/
theorem test_ldVxDt : after (State.reset.setDT 5) 0xF207 (fun t => decide (t.getV 2 = 5 ∧ t.dt = 4)) := by decide

/-- T7.4, T7.5. -/
theorem test_ldDtVx : after (State.reset.setV 4 0x3C) 0xF415 (fun t => decide (t.dt = 0x3B)) ∧
    after (State.reset.setV 0 1) 0xF015 (fun t => decide (t.dt = 0)) := by decide

/-- T7.6, T7.7. -/
theorem test_ldStVx : after (State.reset.setV 4 2) 0xF418 (fun t => decide (t.st = 1)) ∧
    after (State.reset.setST 5) 0xF018 (fun t => decide (t.st = 0)) := by decide

/-! ## Memory transfer and font (T8) -/

/-- T8.2, T8.5. -/
theorem test_ldB : after ((State.reset.setV 0 255).setIndex 0x400) 0xF033 (fun t => decide (t.memReadList 0x400 3 = [2, 5, 5])) ∧
    after ((State.reset.setV 0 123).setIndex 0xFFF) 0xF033
      (fun t => decide (t.mem.read 0xFFF = 1 ∧ t.mem.read 0 = 2 ∧ t.mem.read 1 = 3 ∧ t.index = 0xFFF)) := by decide

/-- T8.6, T8.8. -/
theorem test_ldIVx : after (((State.reset.setV 0 0xAB).setV 1 0xCD).setIndex 0x400) 0xF055
      (fun t => decide (t.memReadList 0x400 2 = [0xAB, 0] ∧ t.index = 0x400)) ∧
    after ((((State.reset.setV 0 1).setV 1 2).setV 2 3).setIndex 0xFFE) 0xF255
      (fun t => decide (t.mem.read 0xFFE = 1 ∧ t.mem.read 0xFFF = 2 ∧ t.mem.read 0 = 3 ∧ t.pc = 0x202)) := by decide

/-- T8.9: nothing is written, no timer counts. -/
theorem test_ldIVx_faults : after (((((strict.setV 0 1).setV 1 2).setV 2 3).setIndex 0xFFE).setDT 5) 0xF255
    (fun t => decide (t.reports = [.boundsFault .mem 0x1000] ∧ t.faulted = true ∧ t.pc = 0x200 ∧ t.dt = 5 ∧
      t.mem.read 0xFFE = 0 ∧ t.mem.read 0xFFF = 0)) := by decide

/-- T8.10, T8.11 (the first 16 bytes of the font). -/
theorem test_ldVxI : after ((stored 0x400 [0x11, 0x22, 0x33]).setIndex 0x400) 0xF165
      (fun t => decide (t.getV 0 = 0x11 ∧ t.getV 1 = 0x22 ∧ t.getV 2 = 0 ∧ t.index = 0x400)) ∧
    after (State.reset.setIndex 0x50) 0xFF65 (fun t => decide (t.v.toList = [0xF0, 0x90, 0x90, 0x90, 0xF0, 0x20, 0x60, 0x20, 0x20,
      0x70, 0xF0, 0x10, 0xF0, 0x80, 0xF0, 0xF0])) := by decide

/-- T8.12, T8.15. -/
theorem test_ldF : after (State.reset.setV 1 10) 0xF129 (fun t => decide (t.index = 0x82)) ∧
    after (State.reset.setV 1 0xFF) 0xF129 (fun t => decide (t.index = 0x54B)) := by decide

/-! ## Reset and the host's moves (T10) -/

/-- The reset sequence with the default parameters gives `State.reset` (70_reset_and_hazards.md R271). -/
theorem test_afterReset_default : State.afterReset Config.spec State.reset.keys 0 0 [] = State.reset := by decide

/-- T10.1: after a reset and a load of `12 00`. -/
theorem test_reset_and_load :
    ((((State.reset.setV 1 9).jump 0x345).memWriteList 0x52 [1, 2, 3]).resetRequest.loadRom [0x12, 0x00]).map
      (fun t => (t.pc, t.getV 1, t.memReadList 0x50 5, t.memReadList 0x9B 5, t.memReadList 0x200 3)) =
    some (0x200, 0, [0xF0, 0x90, 0x90, 0x90, 0xF0], [0xF0, 0x80, 0xF0, 0x80, 0x80], [0x12, 0, 0]) := by decide

/-- A ROM of 3585 bytes is refused (R272). -/
theorem test_loadRom_refuses : State.reset.loadRom (List.replicate 3585 0) = none :=
  if_neg (by rw [List.length_replicate]; decide)

/-! ## Witnesses: concrete states and operands that meet the hypotheses of each obligation that has some -/

open Sys2Proof.Statements

/-- A state with the word `w` where it fetches. -/
def placed (s : State) (w : Nat) : State := s.withFetchWord 16 w

/-- The reset state at a stack depth. -/
def depth (n : Fin 17) : State := { State.reset with sp := n }

theorem witness_DecodeOfEncodeIsTheInstruction : (Instr.drw 15 15 15).wellFormed = true ∧ Instr.cls.wellFormed = true := by decide

theorem witness_EncodeOfDecodeIsTheWord : decodeWord 0x512F = .insn (.seReg 1 2) := by decide

theorem witness_DecoderFollowsOpcodeTable : decodeWord 0x8FF6 = .insn (.shr 15 15) ∧
    (0x0FEE : Word) &&& rowMask .ret = rowMatch .ret := by decide

theorem witness_StepRunsDecodedInstruction : FetchesInstr (placed State.reset 0x6A02) (.ldImm 0xA 2) ∧
    ∃ t, exec (.ldImm 0xA 2) { placed State.reset 0x6A02 with pc := State.reset.pc + 2 } = .next t :=
  ⟨⟨rfl, .inl rfl, by decide⟩, _, rfl⟩

/-- The handler that faults, at the last address the fetch lets through. -/
theorem witness_StepRunsDecodedInstruction_faulting :
    FetchesInstr (placed ((strict.jump 0xFFE).setIndex 0x1000) 0xF065) (.ldVxI 0) ∧
    ∃ t, exec (.ldVxI 0) { placed ((strict.jump 0xFFE).setIndex 0x1000) 0xF065 with pc := 0x1000 } = .next t ∧
      t.faulted = true :=
  ⟨⟨rfl, .inr (by decide), by decide⟩, _, rfl, by decide⟩

theorem witness_UnmappedWordIsNoOp : FetchesWord (placed State.reset 0xF0FF) 0xF0FF ∧
    NoHandler 0xF0FF := ⟨⟨rfl, .inl rfl, by decide⟩, by unfold NoHandler; decide⟩

theorem witness_RunningCoreAlwaysSteps : State.reset.faulted = false ∧ strict.faulted = false := by decide

theorem witness_FaultedCoreNeverChanges : State.faulted { State.reset with faulted := true } = true := rfl

/-- Both timers at 0, and an instruction that writes neither. -/
theorem witness_TimersCountEveryCompletedCycle : FetchesWord (placed State.reset 0x6A02) 0x6A02 ∧
    (∃ t, step (placed State.reset 0x6A02) = .next t ∧ t.faulted = false) ∧ decodeWord 0x6A02 = .insn (.ldImm 0xA 2) :=
  ⟨⟨rfl, .inl rfl, by decide⟩, ⟨_, rfl, by decide⟩, by decide⟩

/-- The word of one timer's write, the other timer at 255. -/
theorem witness_TimersCountEveryCompletedCycle_write : FetchesWord (placed (State.reset.setST 255) 0xF415) 0xF415 ∧
    (∃ t, step (placed (State.reset.setST 255) 0xF415) = .next t ∧ t.faulted = false) ∧ decodeWord 0xF415 = .insn (.ldDtVx 4) :=
  ⟨⟨rfl, .inl rfl, by decide⟩, ⟨_, rfl, by decide⟩, by decide⟩

/-- One word for each clause: a no-op, a skip, a key wait, and an instruction that is none of these, at the last address. -/
theorem witness_PcMovesOnlyAsListed :
    (∀ w ∈ [0x0000, 0x3000, 0xF00A, 0x6A02],
      (placed (State.reset.jump 0xFFFF) w).faulted = false ∧
      wordOfBytes ((placed (State.reset.jump 0xFFFF) w).memRead 0xFFFF) ((placed (State.reset.jump 0xFFFF) w).memRead 0x10000) =
        BitVec.ofNat 16 w ∧
      after (State.reset.jump 0xFFFF) w (fun t => !t.faulted) = true) ∧
    decodeWord 0x0000 = .unmapped (.systemKey 0) ∧ decodeWord 0x3000 = .insn (.seImm 0 0) ∧
    decodeWord 0xF00A = .insn (.ldVxK 0) ∧ decodeWord 0x6A02 = .insn (.ldImm 0xA 2) := by decide

theorem witness_FetchOutOfRangeFaults : [0xFFF, 0x1000, 0xFFFF].all (fun pc =>
    decide ((strict.jump pc).faulted = false ∧ (strict.jump pc).cfg.oobPolicy = .fault ∧ 4096 ≤ (strict.jump pc).pc.toNat + 1)) = true := by
  decide

/-- Each form at the lowest `I` that runs over, and at the highest `I`. -/
theorem witness_MemoryInstructionOutOfRangeFaults : strict.cfg.oobPolicy = .fault ∧
    4096 < (strict.setIndex 0x1000).index.toNat + 1 ∧ 4096 < (strict.setIndex 0xFFFF).index.toNat + 1 ∧ 4096 < (strict.setIndex 0xFF2).index.toNat + 15 ∧
    4096 < (strict.setIndex 0xFFE).index.toNat + 3 ∧ 4096 < (strict.setIndex 0xFF1).index.toNat + ((15 : Reg).val + 1) := by decide

theorem witness_KeyIndexOutOfRangeFaults : ∀ b ∈ [16, 255],
    (strict.setV 1 b).cfg.oobPolicy = .fault ∧ 16 ≤ ((strict.setV 1 b).getV 1).toNat := by decide

theorem witness_BoundsFaultIsPrecise : ∃ t, step (strict.jump 0xFFF) = .next t ∧ t.faulted = true := ⟨_, rfl, rfl⟩

theorem witness_CycleReportsAtMostOneError : ∃ t, step (placed (depth 16) 0x2300) = .next t ∧ t.reports = [.stackOverflow] :=
  ⟨_, rfl, by decide⟩

theorem witness_StackErrorsRecoverAtZero : (depth 16).sp.val = 16 ∧ (depth 0).sp.val = 0 := by decide

theorem witness_ResetSequenceForEveryParameter : (∃ t, t = State.reset.resetRequest) ∧ State.reset.cfg.resetRegs = .zero :=
  ⟨⟨_, rfl⟩, rfl⟩

theorem witness_RomIsCopiedVerbatim : Memory.wf State.reset.mem ∧ (List.replicate 3584 (1 : Byte)).length ≤ 3584 ∧
    3584 < (List.replicate 3585 (1 : Byte)).length :=
  ⟨by decide, List.length_replicate.le, by rw [List.length_replicate]; decide⟩

theorem witness_StepKeepsInvariant : State.reset.Inv ∧ ∃ t, step State.reset = .next t := ⟨by decide, _, rfl⟩

theorem witness_StepNeverWritesKeysOrParameters : ∃ t, step (State.reset.setKeys (down [6])) = .next t := ⟨_, rfl⟩

theorem witness_RegistersWrittenOnlyAsTabled : ∃ t, step (placed State.reset 0x6A02) = .next t ∧ t.getV 0xA ≠ State.reset.getV 0xA :=
  ⟨_, rfl, by decide⟩

theorem witness_IndexWrittenOnlyByThree : ∃ t, step (placed State.reset 0xA001) = .next t ∧ t.index ≠ State.reset.index :=
  ⟨_, rfl, by decide⟩

theorem witness_StackChangesOnlyByCallAndRet :
    (∃ t, step (placed (depth 15) 0x2300) = .next t ∧ t.sp ≠ (depth 15).sp) ∧
    ∃ t, step (placed (depth 1) 0x00EE) = .next t ∧ t.sp ≠ (depth 1).sp := ⟨⟨_, rfl, by decide⟩, _, rfl, by decide⟩

theorem witness_MemoryWrittenOnlyByTwo :
    ∃ t, step (placed ((State.reset.setV 0 9).setIndex 0xFFF) 0xF033) = .next t ∧ t.memRead 1 ≠ State.memRead (placed ((State.reset.setV 0 9).setIndex 0xFFF) 0xF033) 1 :=
  ⟨_, rfl, by decide⟩

theorem witness_DisplayChangesOnlyByClsAndDrw : ∃ t, step (placed (State.reset.setIndex 0x50) 0xD001) = .next t ∧
    t.disp ≠ State.reset.disp := ⟨_, rfl, by decide⟩

/-- Two different displays under `DRW`, with different flags after. -/
theorem witness_DisplaySeenOnlyThroughCollisionFlag :
    (∃ t, step (placed (State.reset.setIndex 0x50) 0xD001) = .next t ∧ t.getV VF = 0) ∧
    ∃ t, step { placed (State.reset.setIndex 0x50) 0xD001 with disp := Display.flip Display.clear 0 0 } = .next t ∧ t.getV VF = 1 :=
  ⟨⟨_, rfl, by decide⟩, _, rfl, by decide⟩

/-- Depth 1, and the slots above it different. -/
theorem witness_StaleStackSlotsUnobservable :
    AlikeButStaleSlots (depth 1) { depth 1 with stack := State.reset.stack.set 1 7 } ∧ ∃ t, step (depth 1) = .next t :=
  ⟨⟨rfl, by decide⟩, _, rfl⟩

theorem witness_SoundTimerAndReportsUnobservable :
    AlikeButOutputs State.reset { State.reset with st := 9, reports := [.stackOverflow] } ∧ ∃ t, step State.reset = .next t :=
  ⟨rfl, _, rfl⟩

/-- Two instances under `RND`. -/
theorem witness_GeneratorSeenOnlyThroughRnd : placed (State.reset.seedSource 1) 0xC30F = { placed State.reset 0xC30F with generator := 1 } ∧
    ∃ t, step (placed State.reset 0xC30F) = .next t := ⟨by decide, _, rfl⟩

theorem witness_CallAndReturnResults : (depth 0).sp.val < 16 ∧ (depth 15).sp.val < 16 ∧ 0 < (depth 1).sp.val ∧ 0 < (depth 16).sp.val := by
  decide

/-- `CALL 300` at the last free slot, and `RET` at 0x300. -/
theorem witness_CallThenReturnRoundTrip :
    FetchesInstr (placed ((depth 15).memWriteList 0x300 [0x00, 0xEE]) 0x2300) (.call 0x300) ∧
    ∃ t, step (placed ((depth 15).memWriteList 0x300 [0x00, 0xEE]) 0x2300) = .next t ∧ FetchesInstr t .ret :=
  ⟨⟨rfl, .inl rfl, by decide⟩, _, rfl, rfl, .inl rfl, by decide⟩

theorem witness_ShiftResults :
    129 = (if State.reset.cfg.shiftSource = .vx then (State.reset.setV 1 129).getV 1 else State.reset.getV 2).toNat ∧
    129 = (if shiftVy.cfg.shiftSource = .vx then shiftVy.getV 1 else (shiftVy.setV 2 129).getV 2).toNat := by decide

/-- `wrap`, and `fault` with the last sprite row in the last cell. -/
theorem witness_DrawResult : memAccessAllowed (State.reset.setIndex 0xFFFF) 0xFFFF 15 ∧ memAccessAllowed (strict.setIndex 0xFF1) 0xFF1 15 ∧
    (15 < 16 ∧ (0 : Reg) ≠ VF) := ⟨.inl rfl, .inr (by decide), by decide⟩

/-- As above, with coordinate registers other than `VF`; and for each side of the flag, a pixel the first draw turns on (glyph 0 on
an empty display), and one row of it that was on already, so that the draw turns nothing on. -/
theorem witness_DoubleDrawRestoresDisplay :
    memAccessAllowed (strict.setIndex 0xFF1) 0xFF1 15 ∧ (15 < 16 ∧ (0 : Reg) ≠ VF ∧ (1 : Reg) ≠ VF) ∧
    (∃ t, exec (.drw 0 1 1) (strict.setIndex 0x50) = .next t ∧ (strict.setIndex 0x50).pixel 0 0 = false ∧ t.pixel 0 0 = true) ∧
    ∃ t, exec (.drw 0 1 1) ((strict.setIndex 0x50).setDisp (Vector.replicate 32 0xF)) = .next t ∧ t.disp[0] = 0 :=
  ⟨.inr (by decide), by decide, ⟨_, rfl, by decide, by decide⟩, _, rfl, by decide⟩

/-- A pixel the sprite covers, and one it does not. -/
theorem witness_DrawResult_pixels : SpriteCovers (State.reset.setIndex 0x50) 0 0 1 0 0 ∧ ¬ SpriteCovers (State.reset.setIndex 0x50) 0 0 1 4 0 := by
  constructor <;> unfold SpriteCovers <;> decide

/-- `fault` at key 15, `wrap` at index 255. -/
theorem witness_KeySkipResults : keyAccessAllowed (strict.setV 1 15) 15 ∧ (15 : Fin 16).val = ((strict.setV 1 15).getV 1).toNat % 16 ∧
    keyAccessAllowed (State.reset.setV 1 255) 255 ∧ (15 : Fin 16).val = ((State.reset.setV 1 255).getV 1).toNat % 16 :=
  ⟨.inr (by decide), by decide, .inl rfl, by decide⟩

/-- The lowest key, the highest key alone, and no key. -/
theorem witness_KeyWaitResult :
    (∀ k ∈ [0, 15], ((State.reset.setKeys (down [k])).keys[Fin.ofNat 16 k] = true ∧
      ∀ j : Fin 16, j < Fin.ofNat 16 k → (State.reset.setKeys (down [k])).keys[j] = false)) ∧
    (∀ k : Fin 16, (placed State.reset 0xF30A).keys[k] = false) ∧ FetchesInstr (placed State.reset 0xF30A) (.ldVxK 3) :=
  ⟨by decide, by decide, rfl, .inl rfl, by decide⟩

theorem witness_KeyWaitHasNoTimeout :
    (∀ k : Fin 16, (placed strict 0xFF0A).keys[k] = false) ∧ FetchesInstr (placed strict 0xFF0A) (.ldVxK 15) :=
  ⟨by decide, rfl, .inr (by decide), by decide⟩

theorem witness_TimerInstructionResults : FetchesInstr (placed (State.reset.setDT 5) 0xF207) (.ldVxDt 2) ∧
    FetchesInstr (placed State.reset 0xF415) (.ldDtVx 4) ∧ FetchesInstr (placed State.reset 0xF418) (.ldStVx 4) :=
  ⟨⟨rfl, .inl rfl, by decide⟩, ⟨rfl, .inl rfl, by decide⟩, rfl, .inl rfl, by decide⟩

/-- The transfers: `wrap` at the highest `I`, and `fault` with the last byte in the last cell. -/
theorem witness_transfers (s : State) (h : s = State.reset.setIndex 0xFFFF ∨ s = strict.setIndex 0xFF0) :
    Memory.wf s.mem ∧ memAccessAllowed s s.index.toNat 3 ∧ memAccessAllowed s s.index.toNat ((15 : Reg).val + 1) := by
  rcases h with rfl | rfl
  · exact ⟨by decide, .inl rfl, .inl rfl⟩
  · exact ⟨by decide, .inr (by decide), .inr (by decide)⟩

/-- `V0`, `V1` stored over the next instruction, at 0x202. -/
theorem witness_StoreSeenByNextFetch :
    Memory.wf State.reset.mem ∧ memAccessAllowed ((State.reset.setIndex 0x202).jump 0x202) 0x202 2 ∧
    (∃ t, exec (.ldIVx 1) ((State.reset.setIndex 0x202).jump 0x202) = .next t) ∧
    0x202 % 4096 = (0x202 + 0) % 4096 ∧ (0 : Reg).val = 0 ∧ (1 : Reg).val = 0 + 1 ∧ (1 : Reg) ≤ 1 :=
  ⟨by decide, .inl rfl, ⟨_, rfl⟩, by decide, rfl, rfl, by decide⟩

end Sys2Proof.Tests
end

section
/-! SUPPORT. What an instruction and a step can do, said once, and the frame rules of spec 10_state.md that follow from it. -/

namespace Sys2Proof.Proofs

open Sys2Proof.Machine Sys2Proof.Statements

/-! ## Everything an instruction's meaning can do -/

/-- The state after `CALL nnn` on a stack that is not full: the post-fetch `pc` pushed (10_state.md R32). -/
def afterCall (s : State) (nnn : BitVec 12) (h : s.sp.val < 16) : State :=
  { s with pc := zext16 nnn, stack := s.stack.set s.sp.val s.pc, sp := ⟨s.sp.val + 1, by omega⟩ }

/-- The state after `RET` on a stack that is not empty: the slot below `SP` popped and kept (10_state.md R32, R33). -/
def afterRet (s : State) (h : 0 < s.sp.val) : State :=
  { s with pc := s.stack[s.sp.val - 1], sp := ⟨s.sp.val - 1, by omega⟩ }

theorem execCall_notFull {s : State} (nnn : BitVec 12) (h : s.sp.val < 16) :
    execCall nnn s = .next (afterCall s nnn h) := by
  rw [execCall, push_notFull _ h]; rfl

theorem execCall_full {s : State} (nnn : BitVec 12) (h : s.sp.val = 16) :
    execCall nnn s = .next ((s.report .stackOverflow).jump 0) := by
  rw [execCall, push_full _ h]; rfl

theorem execRet_notEmpty {s : State} (h : 0 < s.sp.val) : execRet s = .next (afterRet s h) := by
  rw [execRet, pop_notEmpty h]; rfl

theorem execRet_empty {s : State} (h : s.sp.val = 0) :
    execRet s = .next ((s.report .stackUnderflow).jump 0) := by
  rw [execRet, pop_empty h]; rfl

/-- The states the meaning of `i` can leave from `s`, each kind of write with the instructions that make it. A completed cycle's
timer update and the fetch's advance are no part of it. -/
inductive Effect (i : Instr) (s : State) : State → Prop
  | boundsFault (p : Space) (a : Nat) (hp : s.cfg.oobPolicy = .fault) : Effect i s (s.rewind.raiseBounds p a)
  | registers (v : Vector Byte 16) (n : Nat) (hv : ∀ r : Reg, ¬ MayWrite i r → v[r] = s.v[r]) :
      Effect i s { s with v := v, draws := n }
  | display (v : Vector Byte 16) (d : Display) (hi : i = .cls ∨ ∃ x y n, i = .drw x y n)
      (hv : ∀ r : Reg, ¬ MayWrite i r → v[r] = s.v[r]) : Effect i s { s with v := v, disp := d }
  | index (w : Word) (hi : (∃ nnn, i = .ldI nnn) ∨ (∃ x, i = .addI x) ∨ ∃ x, i = .ldF x) : Effect i s (s.setIndex w)
  | timers (dt st : Byte) : Effect i s { s with dt := dt, st := st }
  | store (bs : List Byte) (hi : (∃ x, i = .ldB x) ∨ ∃ x, i = .ldIVx x) : Effect i s (s.memWriteList s.index.toNat bs)
  | skip (p : Word) (hi : IsSkip i) (hp : p = s.pc ∨ p = s.pc + 2) : Effect i s (s.jump p)
  | keyWait (x : Reg) (hi : i = .ldVxK x) : Effect i s s.rewind
  | jump (p : Word) (hi : IsJump i) : Effect i s (s.jump p)
  | call (nnn : BitVec 12) (hi : i = .call nnn) (h : s.sp.val < 16) : Effect i s (afterCall s nnn h)
  | ret (hi : i = .ret) (h : 0 < s.sp.val) : Effect i s (afterRet s h)
  | stackError (r : Report) (hi : ((∃ nnn, i = .call nnn) ∧ s.sp.val = 16 ∧ r = .stackOverflow) ∨
      (i = .ret ∧ s.sp.val = 0 ∧ r = .stackUnderflow)) : Effect i s ((s.report r).jump 0)

theorem Effect.setV {i : Instr} (s : State) {x : Reg} (b : Byte) (hx : ∀ r, ¬ MayWrite i r → r ≠ x) :
    Effect i s (s.setV x b) :=
  .registers _ s.draws fun r hr => getV_setV_other s b (hx r hr)

theorem Effect.setResultFlag {i : Instr} (s : State) {x : Reg} (b f : Byte)
    (hx : ∀ r, ¬ MayWrite i r → ¬ (r = x ∨ r = VF)) : Effect i s (s.setResultFlag x b f) := by
  refine .registers _ s.draws fun r hr => ?_
  obtain ⟨hrx, hrf⟩ := not_or.mp (hx r hr)
  exact (getV_setResultFlag s x r b f).trans (by rw [if_neg hrf, if_neg hrx]; rfl)

theorem Effect.skipIf {i : Instr} (s : State) (c : Bool) (hi : IsSkip i) : Effect i s (s.skipIf c) := by
  cases c with
  | false => exact .skip s.pc hi (.inl rfl)
  | true => exact .skip (s.pc + 2) hi (.inr rfl)

/-- An address is out of range only where that is an error (20_memory.md R55). -/
theorem policy_of_memOutOfRange {p : OobPolicy} {a n b : Nat} (h : memOutOfRange p a n = some b) : p = .fault := by
  cases p with
  | wrap => cases h
  | fault => rfl

/-- A key index is out of range only where that is an error (20_memory.md R59). -/
theorem policy_of_keyOutOfRange {p : OobPolicy} {k b : Nat} (h : keyOutOfRange p k = some b) : p = .fault := by
  cases p with
  | wrap => cases h
  | fault => rfl

theorem Effect.of_checkedMem {i : Instr} {n : Nat} {s e u : State} (h : checkedMem n s e = .next u) (he : Effect i s e) :
    Effect i s u := by
  obtain ⟨-, rfl⟩ | ⟨a, ha, rfl⟩ := checked_cases h
  · exact he
  · exact .boundsFault _ a (policy_of_memOutOfRange ha)

theorem Effect.of_checkedKey {i : Instr} {k : Nat} {s e u : State} (h : checkedKey k s e = .next u) (he : Effect i s e) :
    Effect i s u := by
  obtain ⟨-, rfl⟩ | ⟨a, ha, rfl⟩ := checked_cases h
  · exact he
  · exact .boundsFault _ a (policy_of_keyOutOfRange ha)

theorem execCall_effect {nnn : BitVec 12} {s u : State} (h : execCall nnn s = .next u) : Effect (.call nnn) s u := by
  by_cases hs : s.sp.val < 16
  · cases (execCall_notFull nnn hs).symm.trans h; exact .call nnn rfl hs
  · have hs : s.sp.val = 16 := by omega
    cases (execCall_full nnn hs).symm.trans h; exact .stackError _ (.inl ⟨⟨nnn, rfl⟩, hs, rfl⟩)

theorem execRet_effect {s u : State} (h : execRet s = .next u) : Effect .ret s u := by
  by_cases hs : 0 < s.sp.val
  · cases (execRet_notEmpty hs).symm.trans h; exact .ret rfl hs
  · have hs : s.sp.val = 0 := by omega
    cases (execRet_empty hs).symm.trans h; exact .stackError _ (.inr ⟨rfl, hs, rfl⟩)

theorem execLdVxK_effect {x : Reg} {s u : State} (h : execLdVxK x s = .next u) : Effect (.ldVxK x) s u := by
  unfold execLdVxK at h
  split at h <;> cases h
  · exact .setV s _ fun _ h => h
  · exact .keyWait x rfl

/-- `LD Vx, [I]` loads no register above `x` (47_memory_transfer.md R222). -/
theorem registersLoaded_above (s : State) {x r : Reg} (h : ¬ r ≤ x) : (registersLoaded s x)[r] = s.v[r] := by
  simp [registersLoaded, h]

/-- Every instruction has one of the effects. -/
theorem exec_effect {i : Instr} {s u : State} (h : exec i s = .next u) : Effect i s u := by
  cases i with
  | cls => cases h; exact .display s.v _ (.inl rfl) fun _ _ => rfl
  | ret => exact execRet_effect h
  | call nnn => exact execCall_effect h
  | jp _ | jpV0 _ => cases h; exact .jump _ trivial
  | seImm _ _ | sneImm _ _ | seReg _ _ | sneReg _ _ => cases h; exact .skipIf s _ trivial
  | skp _ | sknp _ => exact .of_checkedKey h (.skipIf s _ trivial)
  | ldImm _ _ | addImm _ _ | ldReg _ _ | orReg _ _ | andReg _ _ | xorReg _ _ | ldVxDt _ =>
    cases h; exact .setV s _ fun _ h => h
  | addReg _ _ | sub _ _ | shr _ _ | subn _ _ | shl _ _ => cases h; exact .setResultFlag s _ _ fun _ h => h
  | ldI nnn => cases h; exact .index _ (.inl ⟨nnn, rfl⟩)
  | addI x => cases h; exact .index _ (.inr (.inl ⟨x, rfl⟩))
  | ldF x => cases h; exact .index _ (.inr (.inr ⟨x, rfl⟩))
  | rnd x kk => cases h; exact .registers _ _ fun _ hr => getV_setV_other s _ hr
  | drw x y n => exact .of_checkedMem h (.display _ _ (.inr ⟨x, y, n, rfl⟩) fun _ hr => getV_setV_other s _ hr)
  | ldVxK x => exact execLdVxK_effect h
  | ldDtVx _ => cases h; exact .timers _ s.st
  | ldStVx _ => cases h; exact .timers s.dt _
  | ldB x => exact .of_checkedMem h (.store _ (.inl ⟨x, rfl⟩))
  | ldIVx x => exact .of_checkedMem h (.store _ (.inr ⟨x, rfl⟩))
  | ldVxI x => exact .of_checkedMem h (.registers _ s.draws fun _ hr => registersLoaded_above s hr)

/-! ## What each effect leaves unchanged -/

section
variable {i : Instr} {s u : State}

/-- No instruction writes the keys, the parameters or the name of the generator. -/
theorem Effect.keeps_host_fields (h : Effect i s u) : u.keys = s.keys ∧ u.cfg = s.cfg ∧ u.generator = s.generator := by
  cases h <;> exact ⟨rfl, rfl, rfl⟩

theorem Effect.keeps_register (h : Effect i s u) {r : Reg} (hr : ¬ MayWrite i r) : u.getV r = s.getV r := by
  cases h with
  | registers _ _ hv => exact hv r hr
  | display _ _ _ hv => exact hv r hr
  | _ => rfl

theorem Effect.keeps_index (h : Effect i s u) :
    u.index = s.index ∨ (∃ nnn, i = .ldI nnn) ∨ (∃ x, i = .addI x) ∨ ∃ x, i = .ldF x := by
  cases h with
  | index _ hi => exact .inr hi
  | _ => exact .inl rfl

theorem Effect.keeps_disp (h : Effect i s u) : u.disp = s.disp ∨ i = .cls ∨ ∃ x y n, i = .drw x y n := by
  cases h with
  | display _ _ hi _ => exact .inr hi
  | _ => exact .inl rfl

theorem Effect.keeps_stack (h : Effect i s u) :
    (u.sp = s.sp ∧ u.stack = s.stack) ∨ (∃ nnn, i = .call nnn ∧ u.sp.val = s.sp.val + 1) ∨
      (i = .ret ∧ u.sp.val + 1 = s.sp.val ∧ u.stack = s.stack) := by
  cases h with
  | call nnn hi _ => exact .inr (.inl ⟨nnn, hi, rfl⟩)
  | ret hi hs => exact .inr (.inr ⟨hi, Nat.sub_add_cancel hs, rfl⟩)
  | _ => exact .inl ⟨rfl, rfl⟩

/-- The invariant is one on memory, which only a store writes, and on `FAULTED`, which only a `BoundsFault` sets. -/
theorem Effect.keeps_inv (h : Effect i s u) (hs : s.Inv) : u.Inv := by
  cases h with
  | boundsFault _ _ hp => exact ⟨hs.1, fun _ => hp⟩
  | store bs _ => exact ⟨wf_writeFrom hs.1 _ bs, hs.2⟩
  | _ => exact hs

/-- How an instruction that takes no `BoundsFault` moves the post-fetch `pc`. -/
theorem Effect.pc_cases (h : Effect i s u) (hf : u.faulted = false) :
    u.pc = s.pc ∨ (IsSkip i ∧ u.pc = s.pc + 2) ∨ ((∃ x, i = .ldVxK x) ∧ u.pc = s.pc - 2) ∨ IsJump i := by
  cases h with
  | boundsFault => cases hf
  | skip _ hi hp => exact hp.imp_right fun hp => .inl ⟨hi, hp⟩
  | keyWait x hi => exact .inr (.inr (.inl ⟨⟨x, hi⟩, rfl⟩))
  | jump _ hi => exact .inr (.inr (.inr hi))
  | call _ hi _ | ret hi _ => subst hi; exact .inr (.inr (.inr trivial))
  | stackError _ hi => obtain ⟨⟨_, rfl⟩, -⟩ | ⟨rfl, -⟩ := hi <;> exact .inr (.inr (.inr trivial))
  | _ => exact .inl rfl

end

theorem not_isJump_of_isSkip {i : Instr} (hi : IsSkip i) : ¬ IsJump i := by
  cases i with
  | seImm _ _ | sneImm _ _ | seReg _ _ | sneReg _ _ | skp _ | sknp _ => exact id
  | _ => exact hi.elim

/-! ## Everything a step can do -/

theorem fetch_outOfRange_policy {s : State} {a : Nat} (h : fetch s = .outOfRange a) : s.cfg.oobPolicy = .fault := by
  unfold fetch at h
  split at h
  · next ha => exact policy_of_memOutOfRange ha
  · cases h

/-- A step faults on its fetch, runs the no-op, or has an effect of the instruction it fetched. -/
theorem step_effect {s t : State} (h : step s = .next t) :
    (∃ a, fetch s = .outOfRange a ∧ s.cfg.oobPolicy = .fault ∧ t = s.raiseBounds .mem a) ∨
    ∃ w, fetch s = .word w ∧
      (((∃ q, decodeWord w = .unmapped q) ∧ t = s.advance.timerUpdate) ∨
       ∃ i u, decodeWord w = .insn i ∧ Effect i s.advance u ∧ t = if u.faulted then u else u.timerUpdate) := by
  obtain ⟨hf, ⟨a, hw, rfl⟩ | ⟨w, u, hw, hu, rfl⟩⟩ := step_cases h
  · exact .inl ⟨a, hw, fetch_outOfRange_policy hw, rfl⟩
  · refine .inr ⟨w, hw, ?_⟩
    cases hd : decodeWord w with
    | unmapped q =>
      rw [hd] at hu
      cases hu
      exact .inl ⟨⟨q, rfl⟩, if_neg (by simp [hf])⟩
    | insn i => exact .inr ⟨i, u, rfl, exec_effect (by rwa [hd] at hu), rfl⟩

/-- A part of the state that the cycle itself, outside the instruction's meaning, leaves as it is. -/
structure KeptByCycle {α : Type} (f : State → α) : Prop where
  advance : ∀ s, f s.advance = f s
  raiseBounds : ∀ s p a, f (s.raiseBounds p a) = f s
  timerUpdate : ∀ s, f s.timerUpdate = f s

/-- A step changes such a part only by the effect of the instruction it fetched. -/
theorem step_change {α : Type} {f : State → α} (hk : KeptByCycle f) {s t : State} (h : step s = .next t) :
    f t = f s ∨ ∃ w i u, fetch s = .word w ∧ decodeWord w = .insn i ∧ Effect i s.advance u ∧ f t = f u := by
  obtain ⟨a, -, -, rfl⟩ | ⟨w, hw, ⟨-, rfl⟩ | ⟨i, u, hd, he, rfl⟩⟩ := step_effect h
  · exact .inl (hk.raiseBounds s _ a)
  · exact .inl ((hk.timerUpdate _).trans (hk.advance s))
  · refine .inr ⟨w, i, u, hw, hd, he, ?_⟩
    split
    · rfl
    · exact hk.timerUpdate u

/-- What the cycle and every effect leave as it is, every step does. -/
theorem step_keeps {α : Type} {f : State → α} (hk : KeptByCycle f) (he : ∀ {i s u}, Effect i s u → f u = f s)
    {s t : State} (h : step s = .next t) : f t = f s := by
  obtain hs | ⟨_, _, u, -, -, hu, ht⟩ := step_change hk h
  · exact hs
  · exact ht.trans ((he hu).trans (hk.advance s))

theorem step_keeps_keys {s t : State} (h : step s = .next t) : t.keys = s.keys :=
  step_keeps (f := State.keys) ⟨fun _ => rfl, fun _ _ _ => rfl, fun _ => rfl⟩ (fun he => he.keeps_host_fields.1) h

theorem step_keeps_cfg {s t : State} (h : step s = .next t) : t.cfg = s.cfg :=
  step_keeps (f := State.cfg) ⟨fun _ => rfl, fun _ _ _ => rfl, fun _ => rfl⟩ (fun he => he.keeps_host_fields.2.1) h

theorem step_keeps_generator {s t : State} (h : step s = .next t) : t.generator = s.generator :=
  step_keeps (f := State.generator) ⟨fun _ => rfl, fun _ _ _ => rfl, fun _ => rfl⟩ (fun he => he.keeps_host_fields.2.2) h

/-- A word with no handler moves `pc` by the fetch's advance alone. -/
theorem step_pc_of_unmapped {s t : State} {w : Word} {q : Unmapped} (hw : fetch s = .word w)
    (hd : decodeWord w = .unmapped q) (h : step s = .next t) : t.pc = s.pc + 2 := by
  obtain ⟨a, hw', -⟩ | ⟨w', hw', ⟨-, rfl⟩ | ⟨i, _, hd', -⟩⟩ := step_effect h
  · cases hw.symm.trans hw'
  · rfl
  · cases hw.symm.trans hw'; cases hd.symm.trans hd'

/-- How a completed cycle moves `pc`: the fetch's advance, then the instruction's own move. -/
theorem step_pc_cases {s t : State} {w : Word} {i : Instr} (hw : fetch s = .word w) (hd : decodeWord w = .insn i)
    (h : step s = .next t) (hf : t.faulted = false) :
    t.pc = s.pc + 2 ∨ (IsSkip i ∧ t.pc = s.pc + 4) ∨ ((∃ x, i = .ldVxK x) ∧ t.pc = s.pc) ∨ IsJump i := by
  obtain ⟨a, hw', -⟩ | ⟨w', hw', ⟨⟨q, hd'⟩, -⟩ | ⟨j, u, hd', he, rfl⟩⟩ := step_effect h
  · cases hw.symm.trans hw'
  · cases hw.symm.trans hw'; cases hd.symm.trans hd'
  · cases hw.symm.trans hw'; cases hd.symm.trans hd'
    have hu : u.faulted = false := by split at hf <;> exact hf
    rw [if_neg (by simp [hu]), timerUpdate_pc]
    have hpc := he.pc_cases hu
    rwa [advance_pc, BitVec.add_sub_cancel, BitVec.add_assoc] at hpc

/-! ## The frame rules and the invariant -/

/-- Settles O22: a fetch fault needs `OOB_POLICY = fault`, and every effect keeps the invariant. -/
theorem stepKeepsInvariant : Obligations.StepKeepsInvariant := by
  intro s t hs h
  obtain ⟨_, -, hp, rfl⟩ | ⟨w, -, ⟨-, rfl⟩ | ⟨i, u, -, he, rfl⟩⟩ := step_effect h
  · exact ⟨hs.1, fun _ => hp⟩
  · exact hs
  · have hu : u.Inv := he.keeps_inv hs
    split
    · exact hu
    · exact hu

/-- Settles O11: no instruction is of two of the kinds in `step_pc_cases`. -/
theorem pcMovesOnlyAsListed : Obligations.PcMovesOnlyAsListed := by
  rintro s t w ⟨-, hok, rfl⟩ h hf
  have hw := fetch_allowed hok
  refine ⟨fun ⟨q, hd⟩ => step_pc_of_unmapped hw hd h, fun i hd => ⟨fun hs => ?_, ?_, fun hs hj hk => ?_⟩⟩
  · obtain hp | ⟨-, hp⟩ | ⟨⟨x, rfl⟩, -⟩ | hj := step_pc_cases hw hd h hf
    · exact .inl hp
    · exact .inr hp
    · exact hs.elim
    · exact absurd hj (not_isJump_of_isSkip hs)
  · rintro ⟨x, rfl⟩
    obtain hp | ⟨hs, -⟩ | ⟨-, hp⟩ | hj := step_pc_cases hw hd h hf
    · exact .inl hp
    · exact hs.elim
    · exact .inr hp
    · exact hj.elim
  · obtain hp | ⟨hs', -⟩ | ⟨⟨x, hx⟩, -⟩ | hj' := step_pc_cases hw hd h hf
    · exact hp
    · exact absurd hs' hs
    · exact absurd hx (hk x)
    · exact absurd hj' hj

/-- Settles O23: neither the cycle nor any effect writes them. -/
theorem stepNeverWritesKeysOrParameters : Obligations.StepNeverWritesKeysOrParameters :=
  fun _ _ h => ⟨step_keeps_keys h, step_keeps_cfg h⟩

/-- Settles O24: an effect keeps every register its instruction may not write. -/
theorem registersWrittenOnlyAsTabled : Obligations.RegistersWrittenOnlyAsTabled := by
  intro s t r h hne
  obtain hs | ⟨w, i, u, hw, hd, he, ht⟩ :=
    step_change (f := (State.getV · r)) ⟨fun _ => rfl, fun _ _ _ => rfl, fun _ => rfl⟩ h
  · exact absurd hs hne
  · exact ⟨w, i, hw, hd, by_contra fun hr => hne (ht.trans (he.keeps_register hr))⟩

/-- Settles O25: no other effect writes `I`. -/
theorem indexWrittenOnlyByThree : Obligations.IndexWrittenOnlyByThree := by
  intro s t h hne
  obtain hs | ⟨w, i, u, hw, hd, he, ht⟩ :=
    step_change (f := State.index) ⟨fun _ => rfl, fun _ _ _ => rfl, fun _ => rfl⟩ h
  · exact absurd hs hne
  · refine ⟨w, hw, ?_⟩
    simpa only [hd, Decoded.insn.injEq] using he.keeps_index.resolve_left fun hu => hne (ht.trans hu)

/-- Settles O26: no other effect writes `SP` or the stack. -/
theorem stackChangesOnlyByCallAndRet : Obligations.StackChangesOnlyByCallAndRet := by
  intro s t h hne
  obtain hs | ⟨w, i, u, hw, hd, he, ht⟩ :=
    step_change (f := fun s => (s.sp, s.stack)) ⟨fun _ => rfl, fun _ _ _ => rfl, fun _ => rfl⟩ h
  · obtain ⟨hsp, hstack⟩ := Prod.mk.inj hs
    exact absurd hne (not_or.mpr ⟨not_not.mpr hsp, not_not.mpr hstack⟩)
  · obtain ⟨hsp, hstack⟩ := Prod.mk.inj ht
    rw [hsp, hstack] at hne ⊢
    refine ⟨w, hw, ?_⟩
    simpa only [hd, Decoded.insn.injEq, advance_sp, advance_stack] using
      he.keeps_stack.resolve_left fun hu => hne.elim (· hu.1) (· hu.2)

/-- Settles O28: no other effect writes the display. -/
theorem displayChangesOnlyByClsAndDrw : Obligations.DisplayChangesOnlyByClsAndDrw := by
  intro s t h hne
  obtain hs | ⟨w, i, u, hw, hd, he, ht⟩ :=
    step_change (f := State.disp) ⟨fun _ => rfl, fun _ _ _ => rfl, fun _ => rfl⟩ h
  · exact absurd hs hne
  · refine ⟨w, hw, ?_⟩
    simpa only [hd, Decoded.insn.injEq] using he.keeps_disp.resolve_left fun hu => hne (ht.trans hu)

end Sys2Proof.Proofs
end

section
/-! SUPPORT. The values of the reset state (spec 10_state.md R47). -/

namespace Sys2Proof.Proofs

open Sys2Proof.Machine

/-- Memory no store has changed is zero outside the font (20_memory.md R52). -/
theorem baseline_outside_font {a : Nat} (h : a < 0x50 ∨ 0xA0 ≤ a) : Memory.baseline a = 0 :=
  if_neg (by simp only [fontBase]; omega)

theorem memRead_reset {a : Nat} (h : a < 4096) : State.reset.memRead a = Memory.baseline a :=
  congrArg Memory.baseline (cellOf_of_lt h)

theorem reset_getV (r : Reg) : State.reset.getV r = 0 := Vector.getElem_replicate r.isLt

theorem reset_stack (k : Fin 16) : State.reset.stack[k] = 0 := Vector.getElem_replicate k.isLt

theorem reset_keys (k : Fin 16) : State.reset.keys[k] = false := Vector.getElem_replicate k.isLt

theorem reset_pixel (px : Fin 64) (py : Fin 32) : State.reset.pixel px py = false := pixel_clear px py

/-- Settles O18: the fields of `State.reset`, and memory with no entry. -/
theorem resetStateValues : Obligations.ResetStateValues :=
  ⟨rfl, reset_getV, rfl, rfl, reset_stack, rfl, rfl, reset_pixel, reset_keys, rfl, rfl,
    fun _ ha hout => (memRead_reset ha).trans (baseline_outside_font hout)⟩

/-- Settles O21: reset memory lists no cell, and `FAULTED` is 0. -/
theorem resetSatisfiesInvariant : Obligations.ResetSatisfiesInvariant :=
  ⟨reset_memory_wf, fun h => by cases h⟩

end Sys2Proof.Proofs
end

section
/-! SUPPORT. What a program cannot observe: pairs of states alike but for a part no instruction reads step to pairs of the same kind
(spec 10_state.md R33, R36, R38, R43). -/

namespace Sys2Proof.Proofs

open Sys2Proof.Machine Sys2Proof.Statements

/-! ## Relations between states that most instructions cannot tell apart -/

/-- A relation of states that differ at most in the stack, the sound timer, the display, the generator and the reports, and that is
kept when both states are given the same value of anything else, the same sound timer or display, or the same report, and when both
make the same call or both return. -/
structure UnreadRelation (R : State → State → Prop) : Prop where
  alike : ∀ {s s'}, R s s' →
    s' = { s with stack := s'.stack, st := s'.st, disp := s'.disp, generator := s'.generator, reports := s'.reports }
  update : ∀ {s s'}, R s s' → ∀ v index pc dt mem faulted draws,
    R { s with v := v, index := index, pc := pc, dt := dt, mem := mem, faulted := faulted, draws := draws }
      { s' with v := v, index := index, pc := pc, dt := dt, mem := mem, faulted := faulted, draws := draws }
  setST : ∀ {s s'}, R s s' → ∀ b, R (s.setST b) (s'.setST b)
  setDisp : ∀ {s s'}, R s s' → ∀ d, R (s.setDisp d) (s'.setDisp d)
  call : ∀ {s s'}, R s s' → ∀ nnn h h', R (afterCall s nnn h) (afterCall s' nnn h')
  ret : ∀ {s s'}, R s s' → ∀ h h', R (afterRet s h) (afterRet s' h')
  report : ∀ {s s'}, R s s' → ∀ r, R (s.report r) (s'.report r)
  timerUpdate : ∀ {s s'}, R s s' → R s.timerUpdate s'.timerUpdate

namespace UnreadRelation

variable {R : State → State → Prop} (hR : UnreadRelation R) {s s' : State}
include hR

/-- The second state, written with the first one's value of every part an instruction reads. -/
theorem exists_eq (h : R s s') : ∃ stack st disp generator reports,
    s' = { s with stack := stack, st := st, disp := disp, generator := generator, reports := reports } :=
  ⟨_, _, _, _, _, hR.alike h⟩

theorem faulted_eq (h : R s s') : s'.faulted = s.faulted := by rw [hR.alike h]

theorem fetch_eq (h : R s s') : fetch s' = fetch s := by
  obtain ⟨_, _, _, _, _, rfl⟩ := hR.exists_eq h
  rfl

theorem setV (h : R s s') (r : Reg) (b : Byte) : R (s.setV r b) (s'.setV r b) := by
  obtain ⟨_, _, _, _, _, rfl⟩ := hR.exists_eq h
  exact hR.update h _ s.index s.pc s.dt s.mem s.faulted s.draws

theorem setResultFlag (h : R s s') (x : Reg) (b f : Byte) : R (s.setResultFlag x b f) (s'.setResultFlag x b f) :=
  hR.setV (hR.setV h x b) VF f

theorem setIndex (h : R s s') (w : Word) : R (s.setIndex w) (s'.setIndex w) := by
  obtain ⟨_, _, _, _, _, rfl⟩ := hR.exists_eq h
  exact hR.update h s.v w s.pc s.dt s.mem s.faulted s.draws

theorem setDT (h : R s s') (b : Byte) : R (s.setDT b) (s'.setDT b) := by
  obtain ⟨_, _, _, _, _, rfl⟩ := hR.exists_eq h
  exact hR.update h s.v s.index s.pc b s.mem s.faulted s.draws

theorem jump (h : R s s') (w : Word) : R (s.jump w) (s'.jump w) := by
  obtain ⟨_, _, _, _, _, rfl⟩ := hR.exists_eq h
  exact hR.update h s.v s.index w s.dt s.mem s.faulted s.draws

theorem advance (h : R s s') : R s.advance s'.advance := by
  obtain ⟨_, _, _, _, _, rfl⟩ := hR.exists_eq h
  exact hR.jump h (s.pc + 2)

theorem rewind (h : R s s') : R s.rewind s'.rewind := by
  obtain ⟨_, _, _, _, _, rfl⟩ := hR.exists_eq h
  exact hR.jump h (s.pc - 2)

theorem skipIf (h : R s s') (c : Bool) : R (s.skipIf c) (s'.skipIf c) := by
  cases c with
  | false => exact h
  | true => exact hR.advance h

theorem memWriteList (h : R s s') (a : Nat) (bs : List Byte) : R (s.memWriteList a bs) (s'.memWriteList a bs) := by
  obtain ⟨_, _, _, _, _, rfl⟩ := hR.exists_eq h
  exact hR.update h s.v s.index s.pc s.dt _ s.faulted s.draws

theorem raiseBounds (h : R s s') (p : Space) (a : Nat) : R (s.raiseBounds p a) (s'.raiseBounds p a) := by
  obtain ⟨_, _, _, _, _, rfl⟩ := hR.exists_eq h
  exact hR.report (hR.update h s.v s.index s.pc s.dt s.mem true s.draws) _

end UnreadRelation

/-! ## One instruction -/

/-- Checked handlers turned away or let through alike end in related states if their faults and their effects are. -/
theorem checked_simulates {Q : State → State → Prop} {oob : Option Nat} {p : Space} {s s' e e' u : State}
    (hfault : ∀ a, Q (s.rewind.raiseBounds p a) (s'.rewind.raiseBounds p a)) (heffect : Q e e')
    (h : checked oob p s e = .next u) : ∃ u', checked oob p s' e' = .next u' ∧ Q u u' := by
  cases oob with
  | none => cases h; exact ⟨e', rfl, heffect⟩
  | some a => cases h; exact ⟨_, rfl, hfault a⟩

section
variable {R : State → State → Prop} (hR : UnreadRelation R) {s s' u : State}
include hR

theorem execLdVxK_simulates (h : R s s') (x : Reg) (hu : execLdVxK x s = .next u) :
    ∃ u', execLdVxK x s' = .next u' ∧ R u u' := by
  have hkeys : s'.lowestKeyDown = s.lowestKeyDown := by
    obtain ⟨_, _, _, _, _, rfl⟩ := hR.exists_eq h
    rfl
  unfold execLdVxK at hu ⊢
  rw [hkeys]
  cases hk : s.lowestKeyDown with
  | none => rw [hk] at hu; cases hu; exact ⟨_, rfl, hR.rewind h⟩
  | some k => rw [hk] at hu; cases hu; exact ⟨_, rfl, hR.setV h _ _⟩

theorem execCall_simulates (h : R s s') (nnn : BitVec 12) (hu : execCall nnn s = .next u) :
    ∃ u', execCall nnn s' = .next u' ∧ R u u' := by
  have hsp : s'.sp = s.sp := by rw [hR.alike h]
  by_cases hs : s.sp.val < 16
  · cases (execCall_notFull nnn hs).symm.trans hu
    exact ⟨_, execCall_notFull nnn (hsp ▸ hs), hR.call h nnn hs _⟩
  · have hs : s.sp.val = 16 := by omega
    cases (execCall_full nnn hs).symm.trans hu
    exact ⟨_, execCall_full nnn (hsp ▸ hs), hR.jump (hR.report h _) 0⟩

theorem execRet_simulates (h : R s s') (hu : execRet s = .next u) : ∃ u', execRet s' = .next u' ∧ R u u' := by
  have hsp : s'.sp = s.sp := by rw [hR.alike h]
  by_cases hs : 0 < s.sp.val
  · cases (execRet_notEmpty hs).symm.trans hu
    exact ⟨_, execRet_notEmpty (hsp ▸ hs), hR.ret h hs _⟩
  · have hs : s.sp.val = 0 := by omega
    cases (execRet_empty hs).symm.trans hu
    exact ⟨_, execRet_empty (hsp ▸ hs), hR.jump (hR.report h _) 0⟩

/-- Every instruction keeps the relation, if `DRW` finds the same display and `RND` the same generator: no other instruction reads
a part in which the two states may differ, but for `CALL` and `RET`, which the relation itself is about. -/
theorem exec_simulates (h : R s s') {i : Instr} (hdisp : (∃ x y n, i = .drw x y n) → s'.disp = s.disp)
    (hgen : (∃ x kk, i = .rnd x kk) → s'.generator = s.generator)
    (hu : exec i s = .next u) : ∃ u', exec i s' = .next u' ∧ R u u' := by
  obtain ⟨stack, st, disp, generator, reports, rfl⟩ := hR.exists_eq h
  cases i with
  | cls => cases hu; exact ⟨_, rfl, hR.setDisp h _⟩
  | ret => exact execRet_simulates hR h hu
  | call nnn => exact execCall_simulates hR h nnn hu
  | jp _ | jpV0 _ => cases hu; exact ⟨_, rfl, hR.jump h _⟩
  | seImm _ _ | sneImm _ _ | seReg _ _ | sneReg _ _ => cases hu; exact ⟨_, rfl, hR.skipIf h _⟩
  | skp _ | sknp _ => exact checked_simulates (hR.raiseBounds (hR.rewind h) _) (hR.skipIf h _) hu
  | ldImm _ _ | addImm _ _ | ldReg _ _ | orReg _ _ | andReg _ _ | xorReg _ _ | ldVxDt _ =>
    cases hu; exact ⟨_, rfl, hR.setV h _ _⟩
  | addReg _ _ | sub _ _ | shr _ _ | subn _ _ | shl _ _ => cases hu; exact ⟨_, rfl, hR.setResultFlag h _ _ _⟩
  | ldI _ | addI _ | ldF _ => cases hu; exact ⟨_, rfl, hR.setIndex h _⟩
  | rnd x kk =>
    cases hgen ⟨x, kk, rfl⟩
    cases hu
    exact ⟨_, rfl, hR.setV (hR.update h s.v s.index s.pc s.dt s.mem s.faulted (s.draws + 1)) _ _⟩
  | drw x y n =>
    cases hdisp ⟨x, y, n, rfl⟩
    exact checked_simulates (hR.raiseBounds (hR.rewind h) _) (hR.setV (hR.setDisp h _) _ _) hu
  | ldVxK x => exact execLdVxK_simulates hR h x hu
  | ldDtVx _ => cases hu; exact ⟨_, rfl, hR.setDT h _⟩
  | ldStVx _ => cases hu; exact ⟨_, rfl, hR.setST h _⟩
  | ldB _ | ldIVx _ => exact checked_simulates (hR.raiseBounds (hR.rewind h) _) (hR.memWriteList h _ _) hu
  | ldVxI _ =>
    exact checked_simulates (hR.raiseBounds (hR.rewind h) _)
      (hR.update h _ s.index s.pc s.dt s.mem s.faulted s.draws) hu

end

/-! ## One step -/

/-- Where two states fetch the same word and its handlers end in related states, so do the steps, if the relation sees the same
`FAULTED` and is kept by the timer update. -/
theorem step_word_simulates {Q : State → State → Prop} {s s' t : State} {w : Word} (hf : s'.faulted = s.faulted)
    (hw : fetch s = .word w) (hw' : fetch s' = fetch s) (hQf : ∀ {u u'}, Q u u' → u'.faulted = u.faulted)
    (hQt : ∀ {u u'}, Q u u' → Q u.timerUpdate u'.timerUpdate)
    (hexec : ∀ u, execDecoded (decodeWord w) s.advance = .next u →
      ∃ u', execDecoded (decodeWord w) s'.advance = .next u' ∧ Q u u')
    (ht : step s = .next t) : ∃ t', step s' = .next t' ∧ Q t t' := by
  have hrun : s.faulted = false := (step_cases ht).1
  obtain ⟨u, hu, rfl⟩ := endCycle_next.mp ((step_word hrun hw).symm.trans ht)
  obtain ⟨u', hu', hQ⟩ := hexec u hu
  refine ⟨_, (step_word (hf.trans hrun) (hw'.trans hw)).trans (endCycle_next.mpr ⟨u', hu', rfl⟩), ?_⟩
  rw [hQf hQ]
  split
  · exact hQ
  · exact hQt hQ

/-- Every step keeps the relation, if one that fetches `DRW` finds the same display and one that fetches `RND` the same generator. -/
theorem UnreadRelation.step_simulates {R : State → State → Prop} (hR : UnreadRelation R) {s s' t : State} (h : R s s')
    (hdisp : (∃ w x y n, fetch s = .word w ∧ decodeWord w = .insn (.drw x y n)) → s'.disp = s.disp)
    (hgen : (∃ w x kk, fetch s = .word w ∧ decodeWord w = .insn (.rnd x kk)) → s'.generator = s.generator)
    (ht : step s = .next t) : ∃ t', step s' = .next t' ∧ R t t' := by
  obtain ⟨hrun, ⟨a, ha, rfl⟩ | ⟨w, -, hw, -, -⟩⟩ := step_cases ht
  · exact ⟨_, step_outOfRange ((hR.faulted_eq h).trans hrun) ((hR.fetch_eq h).trans ha), hR.raiseBounds h _ a⟩
  · refine step_word_simulates (hR.faulted_eq h) hw (hR.fetch_eq h) hR.faulted_eq hR.timerUpdate (fun u hu => ?_) ht
    cases hd : decodeWord w with
    | unmapped q => rw [hd] at hu; cases hu; exact ⟨_, rfl, hR.advance h⟩
    | insn i =>
      rw [hd] at hu
      exact exec_simulates hR (hR.advance h) (fun ⟨x, y, n, hi⟩ => hdisp ⟨w, x, y, n, hw, hi ▸ hd⟩)
        (fun ⟨x, kk, hi⟩ => hgen ⟨w, x, kk, hw, hi ▸ hd⟩) hu

/-! ## Stack slots at and above the depth -/

/-- `CALL` gives the slot at `SP` the same value. -/
theorem staleSlots_afterCall {s s' : State} (h : AlikeButStaleSlots s s') (nnn : BitVec 12) (hs : s.sp.val < 16)
    (hs' : s'.sp.val < 16) : AlikeButStaleSlots (afterCall s nnn hs) (afterCall s' nnn hs') := by
  obtain ⟨heq, hslots⟩ := h
  obtain ⟨stack, rfl⟩ : ∃ stack, s' = { s with stack := stack } := ⟨_, heq⟩
  refine ⟨rfl, fun k (hk : k.val < s.sp.val + 1) => ?_⟩
  show (stack.set s.sp.val s.pc)[k.val] = (s.stack.set s.sp.val s.pc)[k.val]
  rw [Vector.getElem_set, Vector.getElem_set]
  split
  · rfl
  · exact hslots k (by omega)

/-- `RET` reads the slot below `SP`, which is alike. -/
theorem staleSlots_afterRet {s s' : State} (h : AlikeButStaleSlots s s') (hs : 0 < s.sp.val) (hs' : 0 < s'.sp.val) :
    AlikeButStaleSlots (afterRet s hs) (afterRet s' hs') := by
  obtain ⟨heq, hslots⟩ := h
  obtain ⟨stack, rfl⟩ : ∃ stack, s' = { s with stack := stack } := ⟨_, heq⟩
  have htop : stack[s.sp.val - 1] = s.stack[s.sp.val - 1] := hslots ⟨s.sp.val - 1, by omega⟩ (Nat.sub_one_lt_of_lt hs)
  exact ⟨congrArg (fun top => { s with pc := top, stack := stack, sp := ⟨s.sp.val - 1, by omega⟩ }) htop,
    fun k hk => hslots k (Nat.lt_of_lt_of_le hk (Nat.sub_le _ _))⟩

theorem unreadRelation_staleSlots : UnreadRelation AlikeButStaleSlots where
  alike h := by rw [h.1]
  update h _ _ _ _ _ _ _ := ⟨by rw [h.1], h.2⟩
  setST h _ := ⟨by rw [h.1]; rfl, h.2⟩
  setDisp h _ := ⟨by rw [h.1]; rfl, h.2⟩
  call := staleSlots_afterCall
  ret := staleSlots_afterRet
  report h _ := ⟨by rw [h.1]; rfl, h.2⟩
  timerUpdate h := ⟨by rw [h.1]; rfl, h.2⟩

/-- Settles O30: every instruction keeps the relation, since `CALL` and `RET` alone use the stack, both below the new `SP`. -/
theorem staleStackSlotsUnobservable : Obligations.StaleStackSlotsUnobservable := by
  intro s s' t h ht
  exact unreadRelation_staleSlots.step_simulates h (fun _ => by rw [h.1]) (fun _ => by rw [h.1]) ht

/-! ## The sound timer and the reports -/

theorem unreadRelation_outputs : UnreadRelation AlikeButOutputs where
  alike h := by rw [h]
  update h _ _ _ _ _ _ _ := by rw [h]; rfl
  setST h _ := by rw [h]; rfl
  setDisp h _ := by rw [h]; rfl
  call h _ _ hs' := by revert hs'; rw [h]; exact fun _ => rfl
  ret h _ hs' := by revert hs'; rw [h]; exact fun _ => rfl
  report h _ := by rw [h]; rfl
  timerUpdate h := by rw [h]; rfl

/-- Settles O31: every instruction keeps the relation, since none reads the sound timer or the reports. -/
theorem soundTimerAndReportsUnobservable : Obligations.SoundTimerAndReportsUnobservable := by
  intro s s' t h ht
  exact unreadRelation_outputs.step_simulates h (fun _ => by rw [h]) (fun _ => by rw [h]) ht

/-! ## The display -/

/-- Two states alike but for the display. -/
def AlikeButDisplay (s s' : State) : Prop := s' = { s with disp := s'.disp }

/-- Two states alike but for the display and the collision flag. -/
def AlikeButDisplayAndFlag (s s' : State) : Prop :=
  s' = { s with disp := s'.disp, v := s'.v } ∧ ∀ r, r ≠ VF → s'.getV r = s.getV r

theorem unreadRelation_display : UnreadRelation AlikeButDisplay where
  alike h := by rw [h]
  update h _ _ _ _ _ _ _ := by rw [h]; rfl
  setST h _ := by rw [h]; rfl
  setDisp h _ := by rw [h]; rfl
  call h _ _ hs' := by revert hs'; rw [h]; exact fun _ => rfl
  ret h _ hs' := by revert hs'; rw [h]; exact fun _ => rfl
  report h _ := by rw [h]; rfl
  timerUpdate h := by rw [h]; rfl

/-- `DRW` passes the display on to the display and the flag. -/
theorem execDrw_display {s s' u : State} (h : AlikeButDisplay s s') (x y : Reg) (n : Nat)
    (hu : execDrw x y n s = .next u) : ∃ u', execDrw x y n s' = .next u' ∧ AlikeButDisplayAndFlag u u' := by
  obtain ⟨d, rfl⟩ : ∃ d, s' = { s with disp := d } := ⟨_, h⟩
  refine checked_simulates ?_ ?_ hu
  · exact fun a => ⟨rfl, fun _ _ => rfl⟩
  · exact ⟨rfl, fun r hr => (getV_setV_other _ _ hr).trans (getV_setV_other (s.setDisp _) _ hr).symm⟩

/-- A step on `DRW` keeps them alike but for the display and the flag. -/
theorem step_display_of_drw {s s' t : State} (h : AlikeButDisplay s s') {w : Word} {x y : Reg} {n : Nat}
    (hw : fetch s = .word w) (hd : decodeWord w = .insn (.drw x y n)) (ht : step s = .next t) :
    ∃ t', step s' = .next t' ∧ AlikeButDisplayAndFlag t t' := by
  refine step_word_simulates (unreadRelation_display.faulted_eq h) hw (unreadRelation_display.fetch_eq h)
    (fun hQ => by rw [hQ.1]) (fun hQ => ⟨by rw [hQ.1]; rfl, hQ.2⟩) (fun u hu => ?_) ht
  rw [hd] at hu ⊢
  exact execDrw_display (unreadRelation_display.advance h) x y n hu

/-- Settles O29: `DRW` alone reads the display, and it passes it on to `VF`. -/
theorem displaySeenOnlyThroughCollisionFlag : Obligations.DisplaySeenOnlyThroughCollisionFlag := by
  intro s s' t h ht
  by_cases hd : ∃ w x y n, fetch s = .word w ∧ decodeWord w = .insn (.drw x y n)
  · obtain ⟨w, x, y, n, hw, hdrw⟩ := hd
    obtain ⟨t', ht', hQ, hreg⟩ := step_display_of_drw h hw hdrw ht
    exact ⟨t', ht', hQ, hreg, fun hno => absurd hdrw (hno w x y n hw)⟩
  · obtain ⟨t', ht', hR⟩ := unreadRelation_display.step_simulates h (absurd · hd) (fun _ => by rw [h]) ht
    have hv : t'.v = t.v := by rw [hR]
    exact ⟨t', ht', by rw [hR], fun r _ => getV_congr hv r, fun _ => hv⟩

/-! ## The generator -/

/-- Two states alike but for the generator. -/
def AlikeButGenerator (s s' : State) : Prop := s' = { s with generator := s'.generator }

/-- Two states alike but for the generator and the register `x`. -/
def AlikeButGeneratorAnd (x : Reg) (s s' : State) : Prop :=
  s' = { s with generator := s'.generator, v := s'.v } ∧ ∀ r, r ≠ x → s'.getV r = s.getV r

theorem unreadRelation_generator : UnreadRelation AlikeButGenerator where
  alike h := by rw [h]
  update h _ _ _ _ _ _ _ := by rw [h]; rfl
  setST h _ := by rw [h]; rfl
  setDisp h _ := by rw [h]; rfl
  call h _ _ hs' := by revert hs'; rw [h]; exact fun _ => rfl
  ret h _ hs' := by revert hs'; rw [h]; exact fun _ => rfl
  report h _ := by rw [h]; rfl
  timerUpdate h := by rw [h]; rfl

/-- `RND` passes the generator on to its destination. -/
theorem execRnd_generator {s s' u : State} (h : AlikeButGenerator s s') (x : Reg) (kk : Byte)
    (hu : execRnd x kk s = .next u) : ∃ u', execRnd x kk s' = .next u' ∧ AlikeButGeneratorAnd x u u' := by
  obtain ⟨g, rfl⟩ : ∃ g, s' = { s with generator := g } := ⟨_, h⟩
  cases hu
  exact ⟨_, rfl, rfl, fun r hr => (getV_setV_other _ _ hr).trans (getV_setV_other _ _ hr).symm⟩

/-- A step on `RND` keeps them alike but for the generator and its destination. -/
theorem step_generator_of_rnd {s s' t : State} (h : AlikeButGenerator s s') {w : Word} {x : Reg} {kk : Byte}
    (hw : fetch s = .word w) (hd : decodeWord w = .insn (.rnd x kk)) (ht : step s = .next t) :
    ∃ t', step s' = .next t' ∧ AlikeButGeneratorAnd x t t' := by
  refine step_word_simulates (unreadRelation_generator.faulted_eq h) hw (unreadRelation_generator.fetch_eq h)
    (fun hQ => by rw [hQ.1]) (fun hQ => ⟨by rw [hQ.1]; rfl, hQ.2⟩) (fun u hu => ?_) ht
  rw [hd] at hu ⊢
  exact execRnd_generator (unreadRelation_generator.advance h) x kk hu

/-- Settles O57: no effect writes the generator, and `RND` alone reads it, into its destination. -/
theorem generatorSeenOnlyThroughRnd : Obligations.GeneratorSeenOnlyThroughRnd := by
  intro s s' t h ht
  refine ⟨step_keeps_generator ht, ?_⟩
  by_cases hd : ∃ w x kk, fetch s = .word w ∧ decodeWord w = .insn (.rnd x kk)
  · obtain ⟨w, x, kk, hw, hrnd⟩ := hd
    obtain ⟨t', ht', hQ, hreg⟩ := step_generator_of_rnd h hw hrnd ht
    refine ⟨t', ht', by rwa [← step_keeps_generator ht'], fun r hr => ⟨w, kk, hw, ?_⟩⟩
    rw [hrnd, not_imp_comm.mp (hreg r) hr]
  · obtain ⟨t', ht', hR⟩ := unreadRelation_generator.step_simulates h (fun _ => by rw [h]) (absurd · hd) ht
    have hv : t'.v = t.v := by rw [hR]
    refine ⟨t', ht', ?_, fun r hr => absurd (getV_congr hv r) hr⟩
    rw [← step_keeps_generator ht', hv]
    exact hR

end Sys2Proof.Proofs
end

section
/-! SUPPORT. Memory (spec 20_memory.md): accesses out of range, what may store, and a store that the next fetch reads. -/

namespace Sys2Proof.Proofs

open Sys2Proof.Machine Sys2Proof.Statements

/-! ## Out of range under `OOB_POLICY = fault` -/

/-- What a memory handler turned away answers: the lowest address out of range is `I`, or 4096 where `I` is below it (R60). -/
theorem checkedMem_boundsFaulted {n : Nat} {s : State} (e : State) (hp : s.cfg.oobPolicy = .fault) (hn : n ≠ 0)
    (h : 4096 < s.index.toNat + n) :
    checkedMem n s e = .next
      (boundsFaulted { s with pc := s.pc - 2 } .mem (if 4096 ≤ s.index.toNat then s.index.toNat else 4096)) := by
  rw [checkedMem_faults e hp (Nat.pos_of_ne_zero hn) h, max_comm, max_def]
  rfl

/-- Settles O13: each of the four is a memory handler over its `n` bytes at `I`. -/
theorem memoryInstructionOutOfRangeFaults : Obligations.MemoryInstructionOutOfRangeFaults := by
  intro s i n hp hi hn h
  obtain ⟨x, y, rfl⟩ | ⟨x, rfl, rfl⟩ | ⟨x, rfl, rfl⟩ | ⟨x, rfl, rfl⟩ := hi
  · exact checkedMem_boundsFaulted (drawSprite x y n s) hp hn h
  · exact checkedMem_boundsFaulted (s.memWriteList s.index.toNat (bcdDigits (s.getV x))) hp hn h
  · exact checkedMem_boundsFaulted (s.memWriteList s.index.toNat (registersUpTo s x)) hp hn h
  · exact checkedMem_boundsFaulted { s with v := registersLoaded s x } hp hn h

/-- Settles O14: both skips check their key index before they look at the key (R59). -/
theorem keyIndexOutOfRangeFaults : Obligations.KeyIndexOutOfRangeFaults :=
  fun s x hp h =>
    ⟨checkedKey_faults (s.skipIf (s.keyDown (s.getV x).toNat)) hp h,
      checkedKey_faults (s.skipIf (!s.keyDown (s.getV x).toNat)) hp h⟩

/-! ## What may store -/

theorem Effect.keeps_mem {i : Instr} {s u : State} (h : Effect i s u) :
    u.mem = s.mem ∨ (∃ x, i = .ldB x) ∨ ∃ x, i = .ldIVx x := by
  cases h with
  | store _ hi => exact .inr hi
  | _ => exact .inl rfl

/-- Settles O27: no other effect writes memory. -/
theorem memoryWrittenOnlyByTwo : Obligations.MemoryWrittenOnlyByTwo := by
  intro s t a h hne
  have hmem : t.mem ≠ s.mem := fun hm => hne (memRead_congr hm a)
  obtain hs | ⟨w, i, u, hw, hd, he, ht⟩ :=
    step_change (f := State.mem) ⟨fun _ => rfl, fun _ _ _ => rfl, fun _ => rfl⟩ h
  · exact absurd hs hmem
  · refine ⟨w, hw, ?_⟩
    simpa only [hd, Decoded.insn.injEq] using he.keeps_mem.resolve_left fun hu => hmem (ht.trans hu)

/-! ## A store into the next instruction -/

/-- Addresses that reduce to one cell read alike (R55). -/
theorem memRead_of_cellOf_eq (s : State) {a b : Nat} (h : cellOf a = cellOf b) : s.memRead a = s.memRead b :=
  congrArg s.mem.read h

@[simp] theorem length_registersUpTo (s : State) (x : Reg) : (registersUpTo s x).length = x.val + 1 := by
  simp [registersUpTo]

@[simp] theorem getElem_registersUpTo (s : State) (x r : Reg) (h : r.val < (registersUpTo s x).length) :
    (registersUpTo s x)[r.val] = s.getV r := by
  simp [registersUpTo, State.getV]

/-- `LD [I], Vx` let through stores `V0` to `Vx` from `I` on (47_memory_transfer.md R221). -/
theorem execLdIVx_allowed {x : Reg} {s : State} (h : memAccessAllowed s s.index.toNat (x.val + 1)) :
    execLdIVx x s = .next (s.memWriteList s.index.toNat (registersUpTo s x)) :=
  checkedMem_allowed _ h

/-- After that store the cell at `I + r`, for a stored register `r`, reads as `r`, by whatever address it is reached (R55). -/
theorem memRead_memWriteList_registersUpTo {x r : Reg} {s : State} (hm : Memory.wf s.mem) (hr : r ≤ x) {a : Nat}
    (ha : cellOf a = cellOf (s.index.toNat + r.val)) :
    (s.memWriteList s.index.toNat (registersUpTo s x)).memRead a = s.getV r := by
  have hrx : r.val ≤ x.val := hr
  rw [memRead_of_cellOf_eq _ ha, memRead_memWriteList_inside hm, getElem_registersUpTo]
  · rw [length_registersUpTo, memSize]; omega
  · rw [length_registersUpTo]; omega

/-- Settles O56: the store keeps `pc` and the parameters, and the two cells the fetch reads hold the two registers. -/
theorem storeSeenByNextFetch : Obligations.StoreSeenByNextFetch := by
  rintro x s t k hi lo hm hstore hfetch ht hpc rfl hlo hx
  cases (execLdIVx_allowed hstore).symm.trans ht
  have hhi : hi ≤ x := le_trans (Fin.le_def.mpr (by omega)) hx
  have hpc' : cellOf (s.pc.toNat + 1) = cellOf (s.index.toNat + lo.val) := by
    simp only [cellOf, memSize]; omega
  refine (fetch_allowed (s := s.memWriteList s.index.toNat (registersUpTo s x)) hfetch).trans ?_
  rw [memWriteList_pc, memRead_memWriteList_registersUpTo hm hhi hpc,
    memRead_memWriteList_registersUpTo hm hx hpc']

end Sys2Proof.Proofs
end

section
/-! SUPPORT. Decoding and encoding of words (spec 30_encoding.md): which word each decoded instruction is the encoding of, and which
words select none. -/

namespace Sys2Proof.Proofs

open Sys2Proof.Statements

/-! ## What an encoding keeps of its word -/

/-- `i` is well formed, and its encoding is the word `w` but for the bits `i` ignores (R95). -/
def Encodes (i : Instr) (w : Word) : Prop := i.wellFormed = true ∧ encodeWord i = w &&& significantBits i

/-- An instruction that ignores no bit encodes to the word itself. -/
theorem encodes_of_eq {i : Instr} {w : Word} (hi : i.wellFormed = true) (hs : significantBits i = BitVec.allOnes 16)
    (h : encodeWord i = w) : Encodes i w :=
  ⟨hi, by rw [hs, BitVec.and_allOnes, h]⟩

/-- Format Z ignores bits 11..8 (R86). -/
theorem formXK_clear_x (op : BitVec 4) (x : Reg) (kk : Byte) : formXK op x kk &&& 0xF0FF = formXK op 0 kk :=
  formXK_mask_key op x kk

/-- Families 5 and 9 ignore bits 3..0 (R90). -/
theorem formXY_clear_n (op : BitVec 4) (x y : Reg) (n : BitVec 4) : formXY op x y n &&& 0xFFF0 = formXY op x y 0 := by
  have h : (0xFFF0 : Word) = BitVec.allOnes 8 ++ (BitVec.allOnes 4 ++ 0#4 : BitVec 8) := by decide
  rw [h, formXY, BitVec.and_append, BitVec.and_append, BitVec.and_allOnes, BitVec.and_allOnes, BitVec.and_zero]
  rfl

section
variable {w : Word} {op : BitVec 4} (hop : fieldOp w = op)
include hop

theorem formA_of_op : formA op (fieldNNN w) = w := hop ▸ formA_fields w

theorem formXK_of_op : formXK op (fieldX w) (fieldKK w) = w := hop ▸ formXK_fields w

theorem formXY_of_op : formXY op (fieldX w) (fieldY w) (fieldN w) = w := hop ▸ formXY_fields w

theorem formXK_zero_of_op : formXK op 0 (fieldKK w) = w &&& 0xF0FF := by
  rw [← formXK_clear_x op (fieldX w), formXK_of_op hop]

theorem formXY_zero_of_op : formXY op (fieldX w) (fieldY w) 0 = w &&& 0xFFF0 := by
  rw [← formXY_clear_n op _ _ (fieldN w), formXY_of_op hop]

end

theorem encodes_drw_of_op {w : Word} (hop : fieldOp w = 0xD) : Encodes (.drw (fieldX w) (fieldY w) (fieldN w).toNat) w :=
  encodes_of_eq (decide_eq_true (fieldN w).isLt) rfl
    (by rw [encodeWord, BitVec.ofNat_toNat, BitVec.setWidth_eq, formXY_of_op hop])

/-! ## The four secondary tables (R86 to R89): what a decoded key encodes to, and which keys are unmapped -/

theorem decodeSystem_insn {kk : Byte} {i : Instr} (h : decodeSystem kk = .insn i) :
    i.wellFormed = true ∧ significantBits i = 0xF0FF ∧ encodeWord i = formXK 0x0 0 kk := by
  unfold decodeSystem at h
  split at h <;> cases h <;> exact ⟨rfl, rfl, rfl⟩

theorem decodeAlu_insn {x y : Reg} {n : BitVec 4} {i : Instr} (h : decodeAlu x y n = .insn i) :
    i.wellFormed = true ∧ significantBits i = BitVec.allOnes 16 ∧ encodeWord i = formXY 0x8 x y n := by
  unfold decodeAlu at h
  split at h <;> cases h <;> exact ⟨rfl, rfl, rfl⟩

theorem decodeKeySkip_insn {x : Reg} {kk : Byte} {i : Instr} (h : decodeKeySkip x kk = .insn i) :
    i.wellFormed = true ∧ significantBits i = BitVec.allOnes 16 ∧ encodeWord i = formXK 0xE x kk := by
  unfold decodeKeySkip at h
  split at h <;> cases h <;> exact ⟨rfl, rfl, rfl⟩

theorem decodeMisc_insn {x : Reg} {kk : Byte} {i : Instr} (h : decodeMisc x kk = .insn i) :
    i.wellFormed = true ∧ significantBits i = BitVec.allOnes 16 ∧ encodeWord i = formXK 0xF x kk := by
  unfold decodeMisc at h
  split at h <;> cases h <;> exact ⟨rfl, rfl, rfl⟩

theorem decodeSystem_unmapped {kk : Byte} :
    (∃ u, decodeSystem kk = .unmapped u) ↔ kk.toNat ≠ 0xE0 ∧ kk.toNat ≠ 0xEE := by
  unfold decodeSystem
  split <;> simp_all [BitVec.toNat_eq]

theorem decodeAlu_unmapped {x y : Reg} {n : BitVec 4} :
    (∃ u, decodeAlu x y n = .unmapped u) ↔ n.toNat ∈ [0x8, 0x9, 0xA, 0xB, 0xC, 0xD, 0xF] := by
  unfold decodeAlu
  split <;> simp_all [BitVec.toNat_eq]
  omega  -- the default alternative: a nibble that is none of the nine keys is one of the other seven

theorem decodeKeySkip_unmapped {x : Reg} {kk : Byte} :
    (∃ u, decodeKeySkip x kk = .unmapped u) ↔ kk.toNat ≠ 0x9E ∧ kk.toNat ≠ 0xA1 := by
  unfold decodeKeySkip
  split <;> simp_all [BitVec.toNat_eq]

theorem decodeMisc_unmapped {x : Reg} {kk : Byte} :
    (∃ u, decodeMisc x kk = .unmapped u) ↔ kk.toNat ∉ [0x07, 0x0A, 0x15, 0x18, 0x1E, 0x29, 0x33, 0x55, 0x65] := by
  unfold decodeMisc
  split <;> simp_all [BitVec.toNat_eq]

/-! ## Primary dispatch -/

/-- What primary dispatch makes of `w`: four families have a secondary table, and a word of any other is the encoding of that family's
one instruction (R85, R90). -/
inductive Dispatch (w : Word) : Decoded → Prop
  | system (hop : fieldOp w = 0x0) : Dispatch w (decodeSystem (fieldKK w))
  | alu (hop : fieldOp w = 0x8) : Dispatch w (decodeAlu (fieldX w) (fieldY w) (fieldN w))
  | keySkip (hop : fieldOp w = 0xE) : Dispatch w (decodeKeySkip (fieldX w) (fieldKK w))
  | misc (hop : fieldOp w = 0xF) : Dispatch w (decodeMisc (fieldX w) (fieldKK w))
  | oneInstr (i : Instr) (hop : fieldOp w ∉ [0x0#4, 0x8#4, 0xE#4, 0xF#4]) (hi : Encodes i w) : Dispatch w (.insn i)

/-- A family without a secondary table, given by its nibble. -/
theorem Dispatch.of_op {w : Word} {op : BitVec 4} {i : Instr} (hop : fieldOp w = op) (hi : Encodes i w)
    (h : op ∉ [0x0#4, 0x8#4, 0xE#4, 0xF#4] := by decide) : Dispatch w (.insn i) :=
  .oneInstr i (hop ▸ h) hi

/-- Every word is dispatched by its family; the alternatives below are the families in the order of their nibbles. -/
theorem decodeWord_dispatch (w : Word) : Dispatch w (decodeWord w) := by
  unfold decodeWord
  split
  next hop => exact .system hop
  next hop => exact .of_op hop (encodes_of_eq rfl rfl (formA_of_op hop))
  next hop => exact .of_op hop (encodes_of_eq rfl rfl (formA_of_op hop))
  next hop => exact .of_op hop (encodes_of_eq rfl rfl (formXK_of_op hop))
  next hop => exact .of_op hop (encodes_of_eq rfl rfl (formXK_of_op hop))
  next hop => exact .of_op hop ⟨rfl, formXY_zero_of_op hop⟩
  next hop => exact .of_op hop (encodes_of_eq rfl rfl (formXK_of_op hop))
  next hop => exact .of_op hop (encodes_of_eq rfl rfl (formXK_of_op hop))
  next hop => exact .alu hop
  next hop => exact .of_op hop ⟨rfl, formXY_zero_of_op hop⟩
  next hop => exact .of_op hop (encodes_of_eq rfl rfl (formA_of_op hop))
  next hop => exact .of_op hop (encodes_of_eq rfl rfl (formA_of_op hop))
  next hop => exact .of_op hop (encodes_of_eq rfl rfl (formXK_of_op hop))
  next hop => exact .of_op hop (encodes_drw_of_op hop)
  next hop => exact .keySkip hop
  next => exact .misc (by simp only [imp_false] at *; bv_omega)

theorem Dispatch.encodes {w : Word} {d : Decoded} {i : Instr} (hd : Dispatch w d) (h : d = .insn i) : Encodes i w := by
  cases hd with
  | system hop =>
    obtain ⟨hwf, hs, he⟩ := decodeSystem_insn h
    exact ⟨hwf, by rw [he, hs, formXK_zero_of_op hop]⟩
  | alu hop =>
    obtain ⟨hwf, hs, he⟩ := decodeAlu_insn h
    exact encodes_of_eq hwf hs (he.trans (formXY_of_op hop))
  | keySkip hop =>
    obtain ⟨hwf, hs, he⟩ := decodeKeySkip_insn h
    exact encodes_of_eq hwf hs (he.trans (formXK_of_op hop))
  | misc hop =>
    obtain ⟨hwf, hs, he⟩ := decodeMisc_insn h
    exact encodes_of_eq hwf hs (he.trans (formXK_of_op hop))
  | oneInstr j hop hj => cases h; exact hj

/-- The list of R94, on the fields of the word. -/
theorem noHandler_iff (w : Word) : NoHandler w ↔
    (fieldOp w = 0x0 ∧ (fieldKK w).toNat ≠ 0xE0 ∧ (fieldKK w).toNat ≠ 0xEE) ∨
    (fieldOp w = 0x8 ∧ (fieldN w).toNat ∈ [0x8, 0x9, 0xA, 0xB, 0xC, 0xD, 0xF]) ∨
    (fieldOp w = 0xE ∧ (fieldKK w).toNat ≠ 0x9E ∧ (fieldKK w).toNat ≠ 0xA1) ∨
    (fieldOp w = 0xF ∧ (fieldKK w).toNat ∉ [0x07, 0x0A, 0x15, 0x18, 0x1E, 0x29, 0x33, 0x55, 0x65]) := by
  have hop : (fieldOp w).toNat = w.toNat / 4096 := by
    have := w.isLt
    rw [fieldOp, extract_toNat]; omega
  have hkk : (fieldKK w).toNat = w.toNat % 256 := by rw [fieldKK, extract_toNat, pow_zero, Nat.div_one]; rfl
  have hn : (fieldN w).toNat = w.toNat % 16 := by rw [fieldN, extract_toNat, pow_zero, Nat.div_one]; rfl
  simp only [NoHandler, BitVec.toNat_eq (x := fieldOp w), hop, hkk, hn, BitVec.reduceToNat]

theorem Dispatch.unmapped_iff {w : Word} {d : Decoded} (hd : Dispatch w d) : (∃ u, d = .unmapped u) ↔ NoHandler w := by
  rw [noHandler_iff]
  cases hd with
  | system hop => simp [hop, decodeSystem_unmapped]
  | alu hop => simp [hop, decodeAlu_unmapped]
  | keySkip hop => simp [hop, decodeKeySkip_unmapped]
  | misc hop => simp [hop, decodeMisc_unmapped]
  | oneInstr i hop _ =>
    simp only [List.mem_cons, List.not_mem_nil, or_false, not_or] at hop
    simp [hop]

/-! ## The obligations -/

/-- Settles O3: by the family of the word, and in the four with a secondary table by what its key encodes to. -/
theorem encodeOfDecodeIsTheWord : Obligations.EncodeOfDecodeIsTheWord :=
  fun w _ h => (decodeWord_dispatch w).encodes h

/-- Settles O5: by the family of the word, and in the four with a secondary table by the keys it lacks. -/
theorem unmappedWordsAreExactlyThoseListed : Obligations.UnmappedWordsAreExactlyThoseListed :=
  fun w => (decodeWord_dispatch w).unmapped_iff

/-- Settles O1: the three words by evaluation, the key wait for each of the 16 registers. -/
theorem sourceWordsDecode : Obligations.SourceWordsDecode :=
  ⟨rfl, rfl, rfl, by decide⟩

end Sys2Proof.Proofs
end

section
/-! SUPPORT. The cycle (spec 40_cycle.md): that every handler answers, what it does to the timers, and what a step adds to it. -/

namespace Sys2Proof.Proofs

open Sys2Proof.Machine Sys2Proof.Statements

/-! ## Every handler answers a next state, and two instructions write a timer -/

/-- The answer is a next state with both timers as in `s`. -/
def AnswersKeepingTimers (s : State) (r : Result) : Prop := ∃ u, r = .next u ∧ u.dt = s.dt ∧ u.st = s.st

/-- A checked handler takes its fault or has its effect, and a fault keeps the timers. -/
theorem checked_keepsTimers (oob : Option Nat) (p : Space) {s e : State} (hdt : e.dt = s.dt) (hst : e.st = s.st) :
    AnswersKeepingTimers s (checked oob p s e) := by
  cases oob with
  | none => exact ⟨e, rfl, hdt, hst⟩
  | some a => exact ⟨s.rewind.raiseBounds p a, rfl, rfl, rfl⟩

theorem execCall_keepsTimers (nnn : BitVec 12) (s : State) : AnswersKeepingTimers s (execCall nnn s) := by
  by_cases hs : s.sp.val < 16
  · exact ⟨_, execCall_notFull nnn hs, rfl, rfl⟩
  · exact ⟨_, execCall_full nnn (by omega), rfl, rfl⟩

theorem execRet_keepsTimers (s : State) : AnswersKeepingTimers s (execRet s) := by
  by_cases hs : 0 < s.sp.val
  · exact ⟨_, execRet_notEmpty hs, rfl, rfl⟩
  · exact ⟨_, execRet_empty (by omega), rfl, rfl⟩

theorem execLdVxK_keepsTimers (x : Reg) (s : State) : AnswersKeepingTimers s (execLdVxK x s) := by
  unfold execLdVxK
  cases s.lowestKeyDown with
  | some k => exact ⟨_, rfl, rfl, rfl⟩
  | none => exact ⟨s.rewind, rfl, rfl, rfl⟩

theorem exec_keepsTimers {i : Instr} (s : State) (hdt : ∀ x, i ≠ .ldDtVx x) (hst : ∀ x, i ≠ .ldStVx x) :
    AnswersKeepingTimers s (exec i s) := by
  cases i with
  | ldDtVx x => exact absurd rfl (hdt x)
  | ldStVx x => exact absurd rfl (hst x)
  | call nnn => exact execCall_keepsTimers nnn s
  | ret => exact execRet_keepsTimers s
  | ldVxK x => exact execLdVxK_keepsTimers x s
  | seImm _ _ | sneImm _ _ | seReg _ _ | sneReg _ _ => exact ⟨_, rfl, skipIf_dt s _, skipIf_st s _⟩
  | skp _ | sknp _ => exact checked_keepsTimers _ _ (skipIf_dt s _) (skipIf_st s _)
  | drw _ _ _ | ldB _ | ldIVx _ | ldVxI _ => exact checked_keepsTimers _ _ rfl rfl
  | _ => exact ⟨_, rfl, rfl, rfl⟩

/-- The handler of every word answers a next state, and writes no timer but by the instruction for it (46_timers.md R211, R212). -/
theorem execDecoded_answers (d : Decoded) (s : State) :
    ∃ u, execDecoded d s = .next u ∧
      ((∀ x, d ≠ .insn (.ldDtVx x)) → u.dt = s.dt) ∧ ((∀ x, d ≠ .insn (.ldStVx x)) → u.st = s.st) := by
  cases d with
  | unmapped q => exact ⟨s, rfl, fun _ => rfl, fun _ => rfl⟩
  | insn i =>
    by_cases hdt : ∃ x, i = .ldDtVx x
    · obtain ⟨x, rfl⟩ := hdt
      exact ⟨s.setDT (s.getV x), rfl, fun h => absurd rfl (h x), fun _ => rfl⟩
    by_cases hst : ∃ x, i = .ldStVx x
    · obtain ⟨x, rfl⟩ := hst
      exact ⟨s.setST (s.getV x), rfl, fun _ => rfl, fun h => absurd rfl (h x)⟩
    obtain ⟨u, hu, hudt, hust⟩ := exec_keepsTimers s (not_exists.mp hdt) (not_exists.mp hst)
    exact ⟨u, hu, fun _ => hudt, fun _ => hust⟩

/-! ## What a step adds to the handler -/

/-- The model's timer update and the statements' word for it. -/
theorem tick_eq_ticked (b : Byte) : tick b = ticked b := by
  apply BitVec.eq_of_toNat_eq
  have := b.isLt
  rw [tick_toNat, ticked, BitVec.toNat_ofNat]
  omega

theorem timerUpdate_eq (s : State) : s.timerUpdate = { s with dt := ticked s.dt, st := ticked s.st } := by
  rw [State.timerUpdate, tick_eq_ticked, tick_eq_ticked]

theorem step_of_fetchesWord {s : State} {w : Word} (h : FetchesWord s w) :
    step s = endCycle (execDecoded (decodeWord w) s.advance) := by
  obtain ⟨hrun, hok, rfl⟩ := h
  exact step_word hrun (fetch_allowed hok)

theorem decodeWord_of_decode {hi lo : Byte} {i : Instr} (h : decode [hi, lo] = .insn i []) :
    decodeWord (wordOfBytes hi lo) = .insn i := by
  cases hd : decodeWord (wordOfBytes hi lo) with
  | insn j => rw [decode, hd] at h; cases h; rfl
  | unmapped q => rw [decode, hd] at h; cases h

theorem step_of_fetchesInstr {s : State} {i : Instr} (h : FetchesInstr s i) : step s = endCycle (exec i s.advance) := by
  obtain ⟨hrun, hok, hd⟩ := h
  rw [step_of_fetchesWord ⟨hrun, hok, rfl⟩, decodeWord_of_decode hd, execDecoded]

theorem cycle_of_faulted {s : State} (h : s.faulted = true) : s.cycle = s := by rw [State.cycle, step_faulted h]

theorem afterCycles_of_faulted {s : State} (h : s.faulted = true) (k : Nat) : s.afterCycles k = s := by
  induction k with
  | zero => rfl
  | succ k ih => rw [State.afterCycles, cycle_of_faulted h, ih]

/-! ## The obligations -/

/-- Settles O7: no row decodes such a word (R94), so its handler is the no-op (R114). -/
theorem unmappedWordIsNoOp : Obligations.UnmappedWordIsNoOp := by
  refine ⟨fun s w h hno => ?_, .inl (by decide)⟩
  obtain ⟨q, hq⟩ := (unmappedWordsAreExactlyThoseListed w).mpr hno
  have hrun : s.faulted = false := h.1
  rw [step_of_fetchesWord h, hq, execDecoded, execNop, endCycle, if_neg (by simp [hrun]), timerUpdate_eq]
  rfl

/-- Settles O8: the fetch's own `BoundsFault` is a next state, and the handler of every word answers one. -/
theorem runningCoreAlwaysSteps : Obligations.RunningCoreAlwaysSteps := by
  intro s hrun
  cases hw : fetch s with
  | outOfRange a => exact ⟨_, step_outOfRange hrun hw⟩
  | word w =>
    obtain ⟨u, hu, -, -⟩ := execDecoded_answers (decodeWord w) s.advance
    exact ⟨_, (step_word hrun hw).trans (endCycle_next.mpr ⟨u, hu, rfl⟩)⟩

/-- Settles O9: by induction on the number of cycles, each of which leaves a faulted state as it is (R117). -/
theorem faultedCoreNeverChanges : Obligations.FaultedCoreNeverChanges :=
  fun _ h => ⟨step_faulted h, afterCycles_of_faulted h⟩

/-- Settles O10: the handler leaves a timer it does not write as it was, and the timer update takes one off it. -/
theorem timersCountEveryCompletedCycle : Obligations.TimersCountEveryCompletedCycle := by
  intro s t w hw ht hf
  obtain ⟨u, hu, hdt, hst⟩ := execDecoded_answers (decodeWord w) s.advance
  rw [step_of_fetchesWord hw, hu] at ht
  cases ht
  have hrun : u.faulted = false := by split at hf <;> exact hf
  rw [if_neg (by simp [hrun]), timerUpdate_dt, timerUpdate_st, tick_toNat, tick_toNat]
  exact ⟨fun h => by rw [hdt h, advance_dt], fun h => by rw [hst h, advance_st]⟩

/-- Settles O6: the bytes at `pc` decode to what their word decodes to, and the cycle ends with the timer update (R115). -/
theorem stepRunsDecodedInstruction : Obligations.StepRunsDecodedInstruction := by
  intro s t i hi ht
  rw [step_of_fetchesInstr hi, State.advance, ht, endCycle, timerUpdate_eq]

end Sys2Proof.Proofs
end

section
/-! SUPPORT. Control flow (spec 41_control_flow.md): the jumps, the call with its return, and the four skips on registers and
immediates. -/

namespace Sys2Proof.Proofs

open Sys2Proof.Machine Sys2Proof.Statements

/-! ## Skips and targets -/

/-- A skip moves `pc` and nothing else (R130). -/
theorem skipIf_eq (s : State) (c : Bool) : s.skipIf c = { s with pc := if c then s.pc + 2 else s.pc } := by
  cases c <;> rfl

theorem skipIf_beq (s : State) (a b : Byte) :
    s.skipIf (a == b) = { s with pc := if a = b then s.pc + 2 else s.pc } := by
  simp only [skipIf_eq, beq_iff_eq]

theorem skipIf_bne (s : State) (a b : Byte) :
    s.skipIf (a != b) = { s with pc := if a = b then s.pc else s.pc + 2 } := by
  simp only [skipIf_eq, bne_iff_ne, ne_eq, ite_not]

@[simp] theorem zext16_toNat (nnn : BitVec 12) : (zext16 nnn).toNat = nnn.toNat := by
  have := nnn.isLt
  rw [zext16, BitVec.toNat_setWidth]
  omega

/-- A 12-bit address and a byte add up to less than 65536, so 16 bits keep their sum (R138). -/
theorem indexedTarget_toNat (s : State) (nnn : BitVec 12) :
    (indexedTarget s nnn).toNat = nnn.toNat + (s.getV 0).toNat := by
  have := nnn.isLt
  have := (s.getV 0).isLt
  rw [indexedTarget, BitVec.toNat_add, zext16_toNat, BitVec.toNat_setWidth]
  omega

/-! ## A call and a return -/

/-- `CALL` writes the slot at the depth and no other (10_state.md R32). -/
theorem afterCall_stack (s : State) (nnn : BitVec 12) (h : s.sp.val < 16) (k : Fin 16) :
    (afterCall s nnn h).stack[k] = if k.val = s.sp.val then s.pc else s.stack[k] := by
  simp only [afterCall, Fin.getElem_fin, Vector.getElem_set, eq_comm]

/-- A return right after a push of `pc` goes to the pushed address, at the depth of the push. -/
theorem afterRet_of_pushed {s t : State} (h : s.sp.val < 16) (hstack : t.stack = s.stack.set s.sp.val s.pc)
    (hsp : t.sp.val = s.sp.val + 1) (ht : 0 < t.sp.val) : (afterRet t ht).pc = s.pc ∧ (afterRet t ht).sp = s.sp := by
  simp [afterRet, hstack, hsp]

/-- A handler that raises no `BoundsFault` is followed by the timer update (40_cycle.md R115). -/
theorem step_completed {s u : State} {i : Instr} (h : FetchesInstr s i) (hu : exec i s.advance = .next u)
    (hf : u.faulted = false) : step s = .next u.timerUpdate := by
  rw [step_of_fetchesInstr h, hu, endCycle, hf]
  rfl

theorem step_call {s : State} {nnn : BitVec 12} (h : FetchesInstr s (.call nnn)) (hs : s.sp.val < 16) :
    step s = .next (afterCall s.advance nnn hs).timerUpdate :=
  step_completed h (execCall_notFull (s := s.advance) nnn hs) h.1

theorem step_ret {s : State} (h : FetchesInstr s .ret) (hs : 0 < s.sp.val) :
    step s = .next (afterRet s.advance hs).timerUpdate :=
  step_completed h (execRet_notEmpty (s := s.advance) hs) h.1

/-! ## Words: families 1, 3, 4, 5 and 9 (30_encoding.md R85, R90) -/

theorem decodeWord_jp (nnn : BitVec 12) : decodeWord (formA 0x1 nnn) = .insn (.jp nnn) := by
  rw [decodeWord, fieldOp_formA, fieldNNN_formA]; rfl

theorem decodeWord_seImm (x : Reg) (kk : Byte) : decodeWord (formXK 0x3 x kk) = .insn (.seImm x kk) := by
  rw [decodeWord, fieldOp_formXK, fieldX_formXK, fieldKK_formXK]; rfl

theorem decodeWord_sneImm (x : Reg) (kk : Byte) : decodeWord (formXK 0x4 x kk) = .insn (.sneImm x kk) := by
  rw [decodeWord, fieldOp_formXK, fieldX_formXK, fieldKK_formXK]; rfl

theorem decodeWord_seReg (x y : Reg) (n : BitVec 4) : decodeWord (formXY 0x5 x y n) = .insn (.seReg x y) := by
  rw [decodeWord, fieldOp_formXY, fieldX_formXY, fieldY_formXY]; rfl

theorem decodeWord_sneReg (x y : Reg) (n : BitVec 4) : decodeWord (formXY 0x9 x y n) = .insn (.sneReg x y) := by
  rw [decodeWord, fieldOp_formXY, fieldX_formXY, fieldY_formXY]; rfl

/-! ## The obligations -/

/-- Settles O34: the return pops the address the call pushed, and neither touches a register. -/
theorem callThenReturnRoundTrip : Obligations.CallThenReturnRoundTrip := by
  intro s t nnn hs hcall ht hret
  cases (step_call hcall hs).symm.trans ht
  obtain ⟨hpc, hsp⟩ :=
    afterRet_of_pushed (s := s.advance) (t := (afterCall s.advance nnn hs).timerUpdate.advance) hs rfl rfl (Nat.succ_pos _)
  exact ⟨_, step_ret hret (Nat.succ_pos _), hpc, hsp, fun _ => rfl⟩

/-- Settles O32: the jump sets `pc` to the address, which 16 bits hold. -/
theorem jumpResult : Obligations.JumpResult :=
  fun nnn s => ⟨decodeWord_jp nnn, s.jump (zext16 nnn), rfl, rfl, zext16_toNat nnn⟩

/-- Settles O33: `CALL` pushes on a stack that is not full, `RET` pops one that is not empty. -/
theorem callAndReturnResults : Obligations.CallAndReturnResults := by
  intro s
  constructor
  · intro nnn hs
    exact ⟨afterCall s nnn hs, execCall_notFull nnn hs, rfl, zext16_toNat nnn, rfl, afterCall_stack s nnn hs⟩
  · intro hs
    refine ⟨afterRet s hs, execRet_notEmpty hs, rfl, Nat.sub_add_cancel hs, fun k hk => ?_⟩
    have hk : s.sp.val - 1 = k.val := by omega
    simp only [afterRet, hk, Fin.getElem_fin]

/-- Settles O35: each skip moves `pc` by its comparison, and bits 3..0 of the register forms select nothing (30_encoding.md R90). -/
theorem skipResults : Obligations.SkipResults := by
  intro x y kk s
  exact ⟨congrArg _ (skipIf_beq s _ _), congrArg _ (skipIf_bne s _ _), congrArg _ (skipIf_beq s _ _),
    congrArg _ (skipIf_bne s _ _), decodeWord_seImm x kk, decodeWord_sneImm x kk,
    fun n => ⟨decodeWord_seReg x y n, decodeWord_sneReg x y n⟩⟩

/-- Settles O36: the jump sets `pc` to the sum, which 16 bits hold. -/
theorem indexedJumpResult : Obligations.IndexedJumpResult :=
  fun nnn s => ⟨s.jump (indexedTarget s nnn), rfl, rfl, indexedTarget_toNat s nnn⟩

end Sys2Proof.Proofs
end

section
/-! SUPPORT. Register moves and arithmetic (spec 42_arithmetic.md): the frame of a register write, what a result with its flag leaves
in both registers, and the flags and results as numbers. -/

namespace Sys2Proof.Proofs

open Sys2Proof.Machine Sys2Proof.Statements

/-! ## Register writes, with and without a flag (R150) -/

theorem registersOnly_setV (s : State) (x : Reg) (b : Byte) : RegistersOnly s (s.setV x b) (· = x) :=
  ⟨rfl, fun _ hr => getV_setV_other s b hr, memRead_setV s x b⟩

theorem registersOnly_setResultFlag (s : State) (x : Reg) (b f : Byte) :
    RegistersOnly s (s.setResultFlag x b f) (fun r => r = x ∨ r = VF) := by
  refine ⟨rfl, fun r hr => ?_, memRead_setResultFlag s x b f⟩
  obtain ⟨hx, hf⟩ := not_or.mp hr
  rw [getV_setResultFlag, if_neg hf, if_neg hx]

theorem getV_setResultFlag_flag (s : State) (x : Reg) (b f : Byte) : (s.setResultFlag x b f).getV VF = f :=
  getV_setV_same _ VF f

theorem getV_setResultFlag_result (s : State) {x : Reg} (b f : Byte) (hx : x ≠ VF) :
    (s.setResultFlag x b f).getV x = b := by
  rw [getV_setResultFlag, if_neg hx, if_pos rfl]

/-! ## Flags and results as numbers -/

theorem carryFlag_eq (a b : Byte) : carryFlag a b = if a.toNat + b.toNat > 255 then 1 else 0 := by
  simp only [carryFlag, flagOf, decide_eq_true_eq]

theorem notBorrowFlag_eq (a b : Byte) : notBorrowFlag a b = if a.toNat ≥ b.toNat then 1 else 0 := by
  simp only [notBorrowFlag, flagOf, decide_eq_true_eq]

theorem sub_toNat (a b : Byte) : (a - b).toNat = (a.toNat + 256 - b.toNat) % 256 := by
  have := b.isLt
  rw [BitVec.toNat_sub]
  omega

theorem shiftRight_toNat (b : Byte) : (b >>> 1).toNat = b.toNat / 2 := by
  rw [BitVec.toNat_ushiftRight, Nat.shiftRight_eq_div_pow, pow_one]

theorem shiftLeft_toNat (b : Byte) : (b <<< 1).toNat = 2 * b.toNat % 256 := by
  rw [BitVec.toNat_shiftLeft, Nat.shiftLeft_eq, pow_one, Nat.mul_comm]

theorem shiftedOutRight_toNat (b : Byte) : (shiftedOutRight b).toNat = b.toNat % 2 := by
  rw [shiftedOutRight, BitVec.toNat_and]
  exact Nat.and_one_is_mod _

/-- The top bit of a byte is what is left of it above 127 (R161). -/
theorem shiftedOutLeft_toNat (b : Byte) : (shiftedOutLeft b).toNat = b.toNat / 128 := by
  have := b.isLt
  have h : (shiftedOutLeft b).toNat = (b >>> 7).toNat % 2 := shiftedOutRight_toNat (b >>> 7)
  rw [h, BitVec.toNat_ushiftRight, Nat.shiftRight_eq_div_pow]
  omega

theorem shiftOperand_eq (s : State) (x y : Reg) :
    shiftOperand s x y = if s.cfg.shiftSource = .vx then s.getV x else s.getV y := by
  cases h : s.cfg.shiftSource <;> simp [shiftOperand, h]

/-- A difference with its not-borrow, as `SUB` and `SUBN` leave them (R158, R160). -/
theorem setResultFlag_difference (s : State) (x : Reg) (a b : Byte) :
    ∃ t, Host.Outcome.next (s.setResultFlag x (a - b) (notBorrowFlag a b)) = (.next t : Result) ∧
      RegistersOnly s t (fun r => r = x ∨ r = VF) ∧ t.getV VF = (if a.toNat ≥ b.toNat then 1 else 0) ∧
      (x ≠ VF → (t.getV x).toNat = (a.toNat + 256 - b.toNat) % 256) := by
  refine ⟨_, rfl, registersOnly_setResultFlag s x _ _, ?_, fun hx => ?_⟩
  · rw [getV_setResultFlag_flag, notBorrowFlag_eq]
  · rw [getV_setResultFlag_result s _ _ hx, sub_toNat]

/-! ## Words: families 6, 7 and 8 (30_encoding.md R85, R87) -/

theorem decodeWord_ldImm (x : Reg) (kk : Byte) : decodeWord (formXK 0x6 x kk) = .insn (.ldImm x kk) := by
  rw [decodeWord, fieldOp_formXK, fieldX_formXK, fieldKK_formXK]; rfl

theorem decodeWord_addImm (x : Reg) (kk : Byte) : decodeWord (formXK 0x7 x kk) = .insn (.addImm x kk) := by
  rw [decodeWord, fieldOp_formXK, fieldX_formXK, fieldKK_formXK]; rfl

/-- Family 8 goes to its secondary table with all three fields. -/
theorem decodeWord_alu (x y : Reg) (n : BitVec 4) : decodeWord (formXY 0x8 x y n) = decodeAlu x y n := by
  rw [decodeWord, fieldOp_formXY, fieldX_formXY, fieldY_formXY, fieldN_formXY]; rfl

/-! ## The obligations -/

/-- Settles O37: each writes its value to `Vx` alone. -/
theorem moveAndAddImmediateResults : Obligations.MoveAndAddImmediateResults := by
  intro x y kk s
  refine ⟨decodeWord_ldImm x kk, decodeWord_addImm x kk, decodeWord_alu x y 0, ?_, ?_, ?_⟩
  · exact ⟨_, rfl, registersOnly_setV s x _, getV_setV_same s x _⟩
  · refine ⟨_, rfl, registersOnly_setV s x _, ?_⟩
    rw [getV_setV_same]
    exact BitVec.toNat_add _ _
  · exact ⟨_, rfl, registersOnly_setV s x _, getV_setV_same s x _⟩

/-- Settles O38: each writes to `Vx` alone, and its operation works on each bit for itself. -/
theorem logicResults : Obligations.LogicResults := by
  intro x y s
  refine ⟨⟨_, rfl, registersOnly_setV s x _, fun b _ => ?_⟩, ⟨_, rfl, registersOnly_setV s x _, fun b _ => ?_⟩,
    ⟨_, rfl, registersOnly_setV s x _, fun b _ => ?_⟩⟩
  · rw [getV_setV_same, BitVec.getLsbD_or]
  · rw [getV_setV_same, BitVec.getLsbD_and]
  · rw [getV_setV_same, BitVec.getLsbD_xor]

/-- Settles O39: the carry is written after the sum, so `VF` holds it whatever `x` is. -/
theorem addWithCarryResult : Obligations.AddWithCarryResult := by
  intro x y s
  refine ⟨_, rfl, registersOnly_setResultFlag s x _ _, ?_, fun hx => ?_⟩
  · rw [getV_setResultFlag_flag, carryFlag_eq]
  · rw [getV_setResultFlag_result s _ _ hx]
    exact BitVec.toNat_add _ _

/-- Settles O40: the two differ only in which register is the minuend (G11, G12). -/
theorem subtractResults : Obligations.SubtractResults :=
  fun x y s => ⟨setResultFlag_difference s x (s.getV x) (s.getV y), setResultFlag_difference s x (s.getV y) (s.getV x)⟩

/-- Settles O41: both shift the register `SHIFT_SOURCE` names, and the bit shifted out is written last. -/
theorem shiftResults : Obligations.ShiftResults := by
  rintro x y s b rfl
  rw [← shiftOperand_eq]
  constructor
  · refine ⟨_, rfl, registersOnly_setResultFlag s x _ _, ?_, fun hx => ?_⟩
    · rw [getV_setResultFlag_flag, shiftedOutRight_toNat]
    · rw [getV_setResultFlag_result s _ _ hx, shiftRight_toNat]
  · refine ⟨_, rfl, registersOnly_setResultFlag s x _ _, ?_, fun hx => ?_⟩
    · rw [getV_setResultFlag_flag, shiftedOutLeft_toNat]
    · rw [getV_setResultFlag_result s _ _ hx, shiftLeft_toNat]

end Sys2Proof.Proofs
end

section
/-! SUPPORT. Index addressing and the random byte (spec 43_addressing_random.md, 47_memory_transfer.md R223): the computed values of
`I` as numbers, and the word of `LD I`. -/

namespace Sys2Proof.Proofs

open Sys2Proof.Machine

/-! ## The values of `I` -/

theorem indexPlus_toNat (s : State) (x : Reg) :
    (indexPlus s x).toNat = (s.index.toNat + (s.getV x).toNat) % 65536 := by
  have := (s.getV x).isLt
  rw [indexPlus, BitVec.toNat_add, BitVec.toNat_setWidth]
  omega

/-- The highest glyph address is `0x50 + 5 * 255`, so 16 bits hold every one (D6). -/
theorem glyphAddr_toNat (s : State) (x : Reg) : (glyphAddr s x).toNat = 0x50 + 5 * (s.getV x).toNat := by
  have := (s.getV x).isLt
  rw [glyphAddr, fontBase, BitVec.toNat_ofNat]
  omega

/-! ## Words: family 0xA -/

/-- Family 0xA is `LD I` alone (30_encoding.md R85). -/
theorem decodeWord_ldI (nnn : BitVec 12) : decodeWord (formA 0xA nnn) = .insn (.ldI nnn) := by
  rw [decodeWord, fieldOp_formA, fieldNNN_formA]; rfl

/-! ## The obligations -/

/-- Settles O42: the instruction sets `I` to the zero-extended address. -/
theorem loadIndexResult : Obligations.LoadIndexResult :=
  fun nnn s => ⟨decodeWord_ldI nnn, s.setIndex (zext16 nnn), rfl, rfl, zext16_toNat nnn⟩

/-- Settles O43: each sets `I` alone, the first to a 16-bit sum that may wrap (D9), the second to one that cannot. -/
theorem indexArithmeticResults : Obligations.IndexArithmeticResults :=
  fun x s => ⟨⟨s.setIndex (indexPlus s x), rfl, rfl, indexPlus_toNat s x⟩,
    ⟨s.setIndex (glyphAddr s x), rfl, rfl, glyphAddr_toNat s x⟩⟩

/-- Settles O44: the draw moves the counter alone, and the masked byte is then written to `Vx` alone. -/
theorem randomResult : Obligations.RandomResult := by
  intro x kk s
  refine ⟨s.rand8.2.setV x (s.rand8.1 &&& kk), rfl, rfl, fun r hr => ?_, fun a => ?_, fun b _ => ?_⟩
  · exact getV_setV_other s.rand8.2 _ hr
  · exact memRead_setV s.rand8.2 x _ a
  · rw [getV_setV_same, rand8_value, BitVec.getLsbD_and]

end Sys2Proof.Proofs
end

section
/-! SUPPORT. Drawing (spec 44_drawing.md): what `DRW` leaves in the display and in `VF`, and that a second draw turns over the same
pixels. -/

namespace Sys2Proof.Proofs

open Sys2Proof.Machine Sys2Proof.Statements

/-! ## One draw (R190) -/

/-- The model's list of pixels and the statements' description of the sprite. -/
theorem mem_drwPixels_iff_spriteCovers {s : State} {x y : Reg} {n : Nat} {px : Fin 64} {py : Fin 32} :
    (px, py) ∈ drwPixels s x y n ↔ SpriteCovers s x y n px py := by
  simp only [mem_drwPixels, SpriteCovers, Nat.mod_add_mod]

/-- `DRW` let through draws its sprite. -/
theorem exec_drw_allowed {x y : Reg} {n : Nat} {s : State} (h : memAccessAllowed s s.index.toNat n) :
    exec (.drw x y n) s = .next (drawSprite x y n s) :=
  checkedMem_allowed _ h

/-- `DRW` writes no register but `VF`. -/
theorem getV_drawSprite_other (s : State) (x y : Reg) (n : Nat) {r : Reg} (hr : r ≠ VF) :
    (drawSprite x y n s).getV r = s.getV r :=
  getV_setV_other (s.setDisp _) _ hr

section
variable (s : State) (x y : Reg) {n : Nat} (hn : n < 16)
include hn

/-- At most 15 rows never meet themselves, so each pixel of the sprite turns over once. -/
theorem pixel_drawSprite (px : Fin 64) (py : Fin 32) :
    (drawSprite x y n s).pixel px py = (s.pixel px py ^^ decide ((px, py) ∈ drwPixels s x y n)) :=
  pixel_drawPixels s.disp false _ (nodup_drwPixels s x y (by omega)) px py

/-- `VF` is the collision. -/
theorem getV_drawSprite_flag :
    (drawSprite x y n s).getV VF =
      if ∃ px py, (px, py) ∈ drwPixels s x y n ∧ s.pixel px py = true then 1 else 0 := by
  have hflag : (drawSprite x y n s).getV VF = flagOf ((drwPixels s x y n).any fun p => s.pixel p.1 p.2) := by
    rw [drawSprite, getV_setV_same, hit_drawPixels _ _ _ (nodup_drwPixels s x y (by omega)), Bool.false_or]
    rfl
  simp only [hflag, flagOf, List.any_eq_true, Prod.exists]

/-- A pixel of the sprite that is on after the draw is one the draw turned on. -/
theorem mem_and_on_iff_turnedOn (px : Fin 64) (py : Fin 32) :
    (px, py) ∈ drwPixels s x y n ∧ (drawSprite x y n s).pixel px py = true ↔
      s.pixel px py = false ∧ (drawSprite x y n s).pixel px py = true := by
  refine and_congr_left fun hon => ?_
  rw [pixel_drawSprite s x y hn] at hon
  by_cases hp : (px, py) ∈ drwPixels s x y n <;> simpa [hp] using hon

end

/-! ## A second draw (R191) -/

/-- `DRW` writes neither memory nor `I`, and of the registers only `VF`, so the sprite is at the same pixels after it. -/
theorem drwPixels_drawSprite (s : State) {x y : Reg} (n : Nat) (hx : x ≠ VF) (hy : y ≠ VF) :
    drwPixels (drawSprite x y n s) x y n = drwPixels s x y n := by
  rw [drwPixels, getV_drawSprite_other s x y n hx, getV_drawSprite_other s x y n hy]
  rfl

/-- Each pixel of the sprite turns over twice. -/
theorem disp_drawSprite_twice (s : State) {x y : Reg} {n : Nat} (hn : n < 16) (hx : x ≠ VF) (hy : y ≠ VF) :
    (drawSprite x y n (drawSprite x y n s)).disp = s.disp := by
  refine display_ext fun px py => ?_
  have h2 := pixel_drawSprite (drawSprite x y n s) x y hn px py
  rw [drwPixels_drawSprite s n hx hy, pixel_drawSprite s x y hn, Bool.xor_assoc, Bool.xor_self, Bool.xor_false] at h2
  exact h2

/-! ## The obligations -/

/-- Settles O46: the sprite's pixels, none of them twice in the model's list, turn over, and `VF` is written last. -/
theorem drawResult : Obligations.DrawResult := by
  intro x y n s hn hok
  have hflag := getV_drawSprite_flag s x y hn
  simp only [← mem_drwPixels_iff_spriteCovers]
  refine ⟨drawSprite x y n s, exec_drw_allowed hok, rfl, fun r hr => getV_drawSprite_other s x y n hr, fun _ => rfl,
    fun px py => ⟨fun hp => ?_, fun hp => ?_⟩, fun hit => hflag.trans (if_pos hit), fun hit => hflag.trans (if_neg hit)⟩
  · rw [pixel_drawSprite s x y hn, decide_eq_true hp, Bool.xor_true]
  · rw [pixel_drawSprite s x y hn, decide_eq_false hp, Bool.xor_false]

/-- Settles O47: the second draw covers the pixels of the first, so its collision is with those the first turned on. -/
theorem doubleDrawRestoresDisplay : Obligations.DoubleDrawRestoresDisplay := by
  intro x y n s hn hx hy hok
  refine ⟨drawSprite x y n s, drawSprite x y n (drawSprite x y n s), exec_drw_allowed hok,
    exec_drw_allowed (s := drawSprite x y n s) hok, disp_drawSprite_twice s hn hx hy, ?_⟩
  simp only [getV_drawSprite_flag _ x y hn, drwPixels_drawSprite s n hx hy, mem_and_on_iff_turnedOn s x y hn]
  exact ⟨fun hon => if_pos hon, fun hon => if_neg hon⟩

end Sys2Proof.Proofs
end

section
/-! SUPPORT. Key input (spec 45_input.md): the two skips on a key, and the key wait with the cycles it lasts. -/

namespace Sys2Proof.Proofs

open Sys2Proof.Machine Sys2Proof.Statements

/-! ## The skips on a key (R200, R201) -/

/-- A key index let through selects the key it is congruent to (20_memory.md R59). -/
theorem keyDown_eq (s : State) {n : Nat} {k : Fin 16} (hk : k.val = n % 16) : s.keyDown n = s.keys[k] := by
  obtain rfl : k = Fin.ofNat 16 n := Fin.ext hk
  rfl

theorem skipIf_not (s : State) (c : Bool) : s.skipIf (!c) = { s with pc := if c then s.pc else s.pc + 2 } := by
  cases c <;> rfl

/-! ## The key wait (R202) -/

theorem decodeWord_ldVxK (x : Reg) : decodeWord (formXK 0xF x 0x0A) = .insn (.ldVxK x) := by
  rw [decodeWord, fieldOp_formXK, fieldX_formXK, fieldKK_formXK]; rfl

theorem execLdVxK_down {s : State} {k : Reg} (x : Reg) (hk : s.keys[k] = true) (hlow : ∀ j < k, s.keys[j] = false) :
    execLdVxK x s = .next (s.setV x (BitVec.ofNat 8 k.val)) := by
  rw [execLdVxK, lowestKeyDown_some.mpr ⟨hk, hlow⟩]

theorem execLdVxK_up {s : State} (x : Reg) (hup : ∀ k : Reg, s.keys[k] = false) : execLdVxK x s = .next s.rewind := by
  rw [execLdVxK, lowestKeyDown_none.mpr hup]

/-- The rewind undoes the fetch's advance, also where `pc` wraps (10_state.md R26). -/
theorem advance_rewind (s : State) : s.advance.rewind = s := by
  rw [State.rewind, advance_pc, BitVec.add_sub_cancel]
  rfl

/-- A fetch reads neither timer. -/
theorem fetchesInstr_timerUpdate {s : State} {i : Instr} (h : FetchesInstr s i) : FetchesInstr s.timerUpdate i := h

section
variable {x : Reg} {s : State}

/-- A cycle that finds every key up is its timer update. -/
theorem step_waiting (hup : ∀ k : Reg, s.keys[k] = false) (h : FetchesInstr s (.ldVxK x)) :
    step s = .next s.timerUpdate := by
  have hwait : exec (.ldVxK x) s.advance = .next s :=
    (execLdVxK_up (s := s.advance) x hup).trans (congrArg _ (advance_rewind s))
  exact step_completed h hwait h.1

theorem cycle_waiting (hup : ∀ k : Reg, s.keys[k] = false) (h : FetchesInstr s (.ldVxK x)) :
    s.cycle = s.timerUpdate := by
  rw [State.cycle, step_waiting hup h]

end

/-- One tick and then `k` more are `k + 1` ticks. -/
theorem tick_sub (b : Byte) (k : Nat) : (tick b).toNat - k = b.toNat - (k + 1) := by
  rw [tick_toNat]
  omega

/-- The wait changes nothing that the next cycle's wait depends on, so it repeats. -/
theorem afterCycles_waiting {x : Reg} {s : State} (k : Nat) (hup : ∀ j : Reg, s.keys[j] = false)
    (h : FetchesInstr s (.ldVxK x)) :
    s.afterCycles k = { s with dt := BitVec.ofNat 8 (s.dt.toNat - k), st := BitVec.ofNat 8 (s.st.toNat - k) } := by
  induction k generalizing s with
  | zero => simp [State.afterCycles]
  | succ k ih =>
    rw [State.afterCycles, cycle_waiting hup h, ih (s := s.timerUpdate) hup (fetchesInstr_timerUpdate h),
      timerUpdate_dt, timerUpdate_st, tick_sub, tick_sub]
    rfl

/-! ## The obligations -/

/-- Settles O49: the scan finds the lowest key down, and where it finds none the rewind undoes the fetch. -/
theorem keyWaitResult : Obligations.KeyWaitResult := by
  refine fun x s => ⟨decodeWord_ldVxK x, fun k hk hlow => ?_, fun hup => ⟨execLdVxK_up x hup, fun h => ?_⟩⟩
  · refine ⟨_, execLdVxK_down x hk hlow, registersOnly_setV s x _, ?_⟩
    rw [getV_setV_same, BitVec.toNat_ofNat]
    omega
  · exact ⟨s.timerUpdate, step_waiting hup h, timerUpdate_eq s, fetchesInstr_timerUpdate h⟩

/-- Settles O50: by induction on the number of cycles, each of which is a timer update and leaves the wait to run next. -/
theorem keyWaitHasNoTimeout : Obligations.KeyWaitHasNoTimeout :=
  fun _ _ k hup h => afterCycles_waiting k hup h

/-- Settles O48: a checked skip let through moves `pc` by its key. -/
theorem keySkipResults : Obligations.KeySkipResults := by
  intro x s k hok hk
  rw [← keyDown_eq s hk]
  exact ⟨(checkedKey_allowed _ hok).trans (congrArg _ (skipIf_eq s _)),
    (checkedKey_allowed _ hok).trans (congrArg _ (skipIf_not s _))⟩

end Sys2Proof.Proofs
end

section
/-! SUPPORT. The timers (spec 46_timers.md): the words of the three instructions on them, and their whole cycles. -/

namespace Sys2Proof.Proofs

open Sys2Proof.Machine Sys2Proof.Statements

/-- The low byte of a word of family F selects the instruction. -/
theorem decodeWord_misc (x : Reg) (kk : Byte) : decodeWord (formXK 0xF x kk) = decodeMisc x kk := by
  rw [decodeWord, fieldOp_formXK, fieldX_formXK, fieldKK_formXK]; rfl

section
variable {x : Reg} {s : State}

theorem step_ldVxDt (h : FetchesInstr s (.ldVxDt x)) : step s = .next (s.advance.setV x s.dt).timerUpdate :=
  step_completed h (u := s.advance.setV x s.dt) rfl h.1

theorem step_ldDtVx (h : FetchesInstr s (.ldDtVx x)) : step s = .next (s.advance.setDT (s.getV x)).timerUpdate :=
  step_completed h (u := s.advance.setDT (s.getV x)) rfl h.1

theorem step_ldStVx (h : FetchesInstr s (.ldStVx x)) : step s = .next (s.advance.setST (s.getV x)).timerUpdate :=
  step_completed h (u := s.advance.setST (s.getV x)) rfl h.1

end

/-! ## The obligation -/

/-- Settles O51: each handler writes one field, before the timer update at the end of its cycle (R210 to R212). -/
theorem timerInstructionResults : Obligations.TimerInstructionResults := by
  intro x s
  refine ⟨decodeWord_misc x 0x07, decodeWord_misc x 0x15, decodeWord_misc x 0x18,
    ⟨s.setV x s.dt, rfl, registersOnly_setV s x s.dt, getV_setV_same s x s.dt⟩, rfl, rfl, fun h => ?_, fun h => ?_, fun h => ?_⟩
  · refine ⟨_, step_ldVxDt h, ?_, tick_eq_ticked s.dt⟩
    rw [getV_timerUpdate, getV_setV_same]
  · exact ⟨_, step_ldDtVx h, tick_toNat (s.getV x)⟩
  · exact ⟨_, step_ldStVx h, tick_toNat (s.getV x)⟩

end Sys2Proof.Proofs
end

section
/-! SUPPORT. Transfers between registers and memory (spec 47_memory_transfer.md): what the two stores leave in memory and the load in
the registers. -/

namespace Sys2Proof.Proofs

open Sys2Proof.Machine Sys2Proof.Statements

/-! ## Stores (R220, R221) -/

/-- A bulk write changes memory alone, and there only the cells of the bytes written (20_memory.md R57). -/
theorem bytesOnly_memWriteList {s : State} (hm : Memory.wf s.mem) (a : Nat) (bs : List Byte) :
    BytesOnly s (s.memWriteList a bs) a bs.length :=
  ⟨rfl, getV_memWriteList s a bs,
    fun c hc => memRead_memWriteList_outside hm a bs c fun k hk heq => hc k hk heq.symm⟩

/-- Every digit fits in its byte. -/
theorem map_toNat_bcdDigits (b : Byte) :
    (bcdDigits b).map BitVec.toNat = [b.toNat / 100, b.toNat / 10 % 10, b.toNat % 10] := by
  simp only [bcdDigits, List.map_cons, List.map_nil, BitVec.toNat_ofNat, List.cons.injEq, and_true]
  omega

theorem length_bcdDigits (b : Byte) : (bcdDigits b).length = 3 := rfl

/-- After `LD B, Vx` the cell at `I + k` holds the `k`-th digit, hundreds first. -/
theorem memRead_memWriteList_bcdDigits {s : State} (hm : Memory.wf s.mem) (x : Reg) (k : Nat) (hk : k < 3) :
    ((s.memWriteList s.index.toNat (bcdDigits (s.getV x))).memRead (s.index.toNat + k)).toNat =
      [(s.getV x).toNat / 100, (s.getV x).toNat / 10 % 10, (s.getV x).toNat % 10][k] := by
  have hlen := length_bcdDigits (s.getV x)
  rw [memRead_memWriteList_inside hm _ _ (by rw [hlen, memSize]; decide) k (hlen.symm ▸ hk)]
  simp only [← map_toNat_bcdDigits, List.getElem_map]

/-! ## The load (R222) -/

theorem registersLoaded_upTo (s : State) {x r : Reg} (hr : r ≤ x) :
    (registersLoaded s x)[r] = s.memRead (s.index.toNat + r.val) := by
  simp [registersLoaded, hr]

theorem execLdVxI_allowed {x : Reg} {s : State} (h : memAccessAllowed s s.index.toNat (x.val + 1)) :
    execLdVxI x s = .next { s with v := registersLoaded s x } :=
  checkedMem_allowed _ h

/-! ## The obligations -/

/-- Settles O52: the three digits are written from `I` on, and each cell reads as the digit written to it. -/
theorem storeDigitsResult : Obligations.StoreDigitsResult := by
  intro x s hm hok
  have hdigit := memRead_memWriteList_bcdDigits hm x
  exact ⟨_, checkedMem_allowed _ hok, bytesOnly_memWriteList hm _ (bcdDigits (s.getV x)),
    hdigit 0 (by decide), hdigit 1 (by decide), hdigit 2 (by decide)⟩

/-- Settles O53: the registers up to `x` are written from `I` on, and each cell reads as its register. -/
theorem storeRegistersResult : Obligations.StoreRegistersResult := by
  intro x s hm hok
  have hframe := bytesOnly_memWriteList hm s.index.toNat (registersUpTo s x)
  rw [length_registersUpTo] at hframe
  exact ⟨_, execLdIVx_allowed hok, hframe, fun _ hr => memRead_memWriteList_registersUpTo hm hr rfl⟩

/-- Settles O54: the load replaces the registers up to `x` by their bytes and keeps those above. -/
theorem loadRegistersResult : Obligations.LoadRegistersResult :=
  fun x s hok => ⟨{ s with v := registersLoaded s x }, execLdVxI_allowed hok,
    ⟨rfl, fun _ hr => registersLoaded_above s hr, fun _ => rfl⟩, fun _ hr => registersLoaded_upTo s hr⟩

/-- Settles O55: the store keeps `I` and the parameters, so the load is let through too, reads the cells just written, and takes no
register's value into account. -/
theorem storeThenLoadRestoresRegisters : Obligations.StoreThenLoadRestoresRegisters := by
  intro x s v hm hok
  refine ⟨_, _, execLdIVx_allowed hok, execLdVxI_allowed hok, fun r hr => ?_⟩
  exact (registersLoaded_upTo _ hr).trans (memRead_memWriteList_registersUpTo hm hr rfl)

end Sys2Proof.Proofs
end

section
/-! SUPPORT. Encoding and the opcode table (spec 30_encoding.md, opcode_table.json): every instruction's word decodes to it, and the
decoder gives a word to the one row whose fixed bits it has. -/

namespace Sys2Proof.Proofs

open Sys2Proof.Statements

/-! ## Words: the families whose words no section above decodes (30_encoding.md R85, R86, R88) -/

/-- The low byte of a word of family 0 selects the instruction, and bits 11..8 are ignored (R86). -/
theorem decodeWord_system (x : Reg) (kk : Byte) : decodeWord (formXK 0x0 x kk) = decodeSystem kk := by
  rw [decodeWord, fieldOp_formXK, fieldKK_formXK]; rfl

theorem decodeWord_call (nnn : BitVec 12) : decodeWord (formA 0x2 nnn) = .insn (.call nnn) := by
  rw [decodeWord, fieldOp_formA, fieldNNN_formA]; rfl

theorem decodeWord_jpV0 (nnn : BitVec 12) : decodeWord (formA 0xB nnn) = .insn (.jpV0 nnn) := by
  rw [decodeWord, fieldOp_formA, fieldNNN_formA]; rfl

theorem decodeWord_rnd (x : Reg) (kk : Byte) : decodeWord (formXK 0xC x kk) = .insn (.rnd x kk) := by
  rw [decodeWord, fieldOp_formXK, fieldX_formXK, fieldKK_formXK]; rfl

theorem decodeWord_drw (x y : Reg) (n : BitVec 4) : decodeWord (formXY 0xD x y n) = .insn (.drw x y n.toNat) := by
  rw [decodeWord, fieldOp_formXY, fieldX_formXY, fieldY_formXY, fieldN_formXY]; rfl

/-- The low byte of a word of family E selects the instruction (R88). -/
theorem decodeWord_keySkip (x : Reg) (kk : Byte) : decodeWord (formXK 0xE x kk) = decodeKeySkip x kk := by
  rw [decodeWord, fieldOp_formXK, fieldX_formXK, fieldKK_formXK]; rfl

/-! ## Decoding an encoding -/

/-- Only `DRW` needs to be well formed: its row count is a number, of which the word keeps four bits (R84). -/
theorem decodeWord_encodeWord {i : Instr} (h : i.wellFormed = true) : decodeWord (encodeWord i) = .insn i := by
  cases i with
  | cls | ret => exact decodeWord_system 0 _
  | jp nnn => exact decodeWord_jp nnn
  | call nnn => exact decodeWord_call nnn
  | seImm x kk => exact decodeWord_seImm x kk
  | sneImm x kk => exact decodeWord_sneImm x kk
  | seReg x y => exact decodeWord_seReg x y 0
  | ldImm x kk => exact decodeWord_ldImm x kk
  | addImm x kk => exact decodeWord_addImm x kk
  | ldReg x y | orReg x y | andReg x y | xorReg x y | addReg x y | sub x y | shr x y | subn x y | shl x y =>
    exact decodeWord_alu x y _
  | sneReg x y => exact decodeWord_sneReg x y 0
  | ldI nnn => exact decodeWord_ldI nnn
  | jpV0 nnn => exact decodeWord_jpV0 nnn
  | rnd x kk => exact decodeWord_rnd x kk
  | drw x y n =>
    have hn : (BitVec.ofNat 4 n).toNat = n := Nat.mod_eq_of_lt (of_decide_eq_true h)
    rw [encodeWord, decodeWord_drw, hn]
  | skp x | sknp x => exact decodeWord_keySkip x _
  | ldVxDt x | ldVxK x | ldDtVx x | ldStVx x | addI x | ldF x | ldB x | ldIVx x | ldVxI x => exact decodeWord_misc x _

/-! ## The rows of the opcode table -/

/-- No row fixes a bit its instruction ignores (R95). -/
theorem rowMask_significant (i : Instr) : significantBits i &&& rowMask i = rowMask i := by
  cases i with
  | cls | ret => rfl
  | seReg _ _ | sneReg _ _ => exact (rfl : (0xFFF0 : Word) &&& 0xF000 = 0xF000)
  | _ => exact BitVec.allOnes_and

/-- Every row fixes the family. -/
theorem rowMask_family (i : Instr) : (rowMask i).extractLsb' 12 4 = BitVec.allOnes 4 := by
  cases i <;> rw [rowMask] <;> rfl

/-- The model's facts about single instructions, as one about all. -/
theorem encodeWord_fixedBits : ∀ i : Instr, encodeWord i &&& rowMask i = rowMatch i
  | .cls => Laws.FixedBits.cls
  | .ret => Laws.FixedBits.ret
  | .jp nnn => Laws.FixedBits.jp nnn
  | .call nnn => Laws.FixedBits.call nnn
  | .seImm x kk => Laws.FixedBits.seImm x kk
  | .sneImm x kk => Laws.FixedBits.sneImm x kk
  | .seReg x y => Laws.FixedBits.seReg x y
  | .ldImm x kk => Laws.FixedBits.ldImm x kk
  | .addImm x kk => Laws.FixedBits.addImm x kk
  | .ldReg x y => Laws.FixedBits.ldReg x y
  | .orReg x y => Laws.FixedBits.orReg x y
  | .andReg x y => Laws.FixedBits.andReg x y
  | .xorReg x y => Laws.FixedBits.xorReg x y
  | .addReg x y => Laws.FixedBits.addReg x y
  | .sub x y => Laws.FixedBits.sub x y
  | .shr x y => Laws.FixedBits.shr x y
  | .subn x y => Laws.FixedBits.subn x y
  | .shl x y => Laws.FixedBits.shl x y
  | .sneReg x y => Laws.FixedBits.sneReg x y
  | .ldI nnn => Laws.FixedBits.ldI nnn
  | .jpV0 nnn => Laws.FixedBits.jpV0 nnn
  | .rnd x kk => Laws.FixedBits.rnd x kk
  | .drw x y n => Laws.FixedBits.drw x y n
  | .skp x => Laws.FixedBits.skp x
  | .sknp x => Laws.FixedBits.sknp x
  | .ldVxDt x => Laws.FixedBits.ldVxDt x
  | .ldVxK x => Laws.FixedBits.ldVxK x
  | .ldDtVx x => Laws.FixedBits.ldDtVx x
  | .ldStVx x => Laws.FixedBits.ldStVx x
  | .addI x => Laws.FixedBits.addI x
  | .ldF x => Laws.FixedBits.ldF x
  | .ldB x => Laws.FixedBits.ldB x
  | .ldIVx x => Laws.FixedBits.ldIVx x
  | .ldVxI x => Laws.FixedBits.ldVxI x

theorem Encodes.fixedBits {i : Instr} {w : Word} (h : Encodes i w) : w &&& rowMask i = rowMatch i := by
  obtain ⟨-, he⟩ := h
  rw [← rowMask_significant, ← BitVec.and_assoc, ← he, encodeWord_fixedBits]

section
variable {w : Word} {i : Instr} (h : w &&& rowMask i = rowMatch i)
include h

/-- A field whose bits the row fixes has in `w` the value the row fixes. -/
theorem extract_of_fixedBits (lo n : Nat) (hm : (rowMask i).extractLsb' lo n = BitVec.allOnes n) :
    w.extractLsb' lo n = (rowMatch i).extractLsb' lo n := by
  rw [← h, BitVec.extractLsb'_and, hm, BitVec.and_allOnes]

theorem fieldOp_of_fixedBits : fieldOp w = fieldOp (rowMatch i) :=
  extract_of_fixedBits h 12 4 (rowMask_family i)

theorem fieldN_of_fixedBits (hm : rowMask i = 0xF00F) : fieldN w = fieldN (rowMatch i) :=
  extract_of_fixedBits h 0 4 (by rw [hm]; rfl)

theorem fieldKK_of_fixedBits (hm : rowMask i = 0xF0FF) : fieldKK w = fieldKK (rowMatch i) :=
  extract_of_fixedBits h 0 8 (by rw [hm]; rfl)

/-- The decoder looks at the family, and in the families with a secondary table at the key: at bits the row fixes. -/
theorem decodeWord_of_fixedBits : ∃ j, decodeWord w = .insn j ∧ rowMask j = rowMask i ∧ rowMatch j = rowMatch i := by
  have hop := fieldOp_of_fixedBits h
  cases i with
  | ldReg _ _ | orReg _ _ | andReg _ _ | xorReg _ _ | addReg _ _ | sub _ _ | shr _ _ | subn _ _ | shl _ _ =>
    rw [decodeWord, hop, fieldN_of_fixedBits h rfl, rowMatch]
    exact ⟨_, rfl, rfl, rfl⟩
  | cls | ret | skp _ | sknp _ | ldVxDt _ | ldVxK _ | ldDtVx _ | ldStVx _ | addI _ | ldF _ | ldB _ | ldIVx _ | ldVxI _ =>
    rw [decodeWord, hop, fieldKK_of_fixedBits h rfl, rowMatch]
    exact ⟨_, rfl, rfl, rfl⟩
  | _ =>
    rw [decodeWord, hop, rowMatch]
    exact ⟨_, rfl, rfl, rfl⟩

end

/-! ## The obligations -/

/-- Settles O2: two bytes make the word they were cut from, and a well-formed instruction's word decodes to it. -/
theorem decodeOfEncodeIsTheInstruction : Obligations.DecodeOfEncodeIsTheInstruction := by
  intro i rest h
  rw [encode, decode_bytesOfWord, decodeWord_encodeWord h]

/-- Settles O4: a decoded word differs from the encoding only where no row fixes a bit, and fixed bits are all the decoder needs. -/
theorem decoderFollowsOpcodeTable : Obligations.DecoderFollowsOpcodeTable :=
  ⟨fun w i h => Encodes.fixedBits (encodeOfDecodeIsTheWord w i h), fun _ _ h => decodeWord_of_fixedBits h⟩

end Sys2Proof.Proofs
end

section
/-! SUPPORT. Clearing the display (spec 48_display_clear.md). -/

namespace Sys2Proof.Proofs

open Sys2Proof.Machine

/-- Settles O45: the handler writes the display alone, and the low byte 0xE0 selects it whatever bits 11..8 are (R86). -/
theorem clearResult : Obligations.ClearResult :=
  ⟨fun s => ⟨s.setDisp Display.clear, rfl, rfl, pixel_clear⟩, fun x => decodeWord_system x 0xE0⟩

end Sys2Proof.Proofs
end

section
/-! SUPPORT. Error conditions (spec 60_exceptions.md): a step takes a `BoundsFault`, with the state otherwise as it was, or completes,
and then only a stack error reports. -/

namespace Sys2Proof.Proofs

open Sys2Proof.Machine Sys2Proof.Statements

/-! ## A step faults or completes -/

/-- `FAULTED` is set by the one effect that is a `BoundsFault`. -/
theorem Effect.faults_or_keeps_faulted {i : Instr} {s u : State} (h : Effect i s u) :
    (s.cfg.oobPolicy = .fault ∧ ∃ p a, u = s.rewind.raiseBounds p a) ∨ u.faulted = s.faulted := by
  cases h with
  | boundsFault p a hp => exact .inl ⟨hp, p, a, rfl⟩
  | _ => exact .inr rfl

/-- What a step that takes no `BoundsFault` did: the no-op, or an effect of the instruction it fetched, then the timer update. -/
def Completes (s t : State) : Prop :=
  t.faulted = false ∧ ∃ w, fetch s = .word w ∧
    (((∃ q, decodeWord w = .unmapped q) ∧ t = s.advance.timerUpdate) ∨
     ∃ i u, decodeWord w = .insn i ∧ Effect i s.advance u ∧ u.faulted = false ∧ t = u.timerUpdate)

theorem step_faults_or_completes {s t : State} (h : step s = .next t) :
    (s.cfg.oobPolicy = .fault ∧ ∃ p a, t = boundsFaulted s p a) ∨ Completes s t := by
  have hrun : s.faulted = false := (step_cases h).1
  obtain ⟨a, -, hp, rfl⟩ | ⟨w, hw, ⟨hq, rfl⟩ | ⟨i, u, hd, he, rfl⟩⟩ := step_effect h
  · exact .inl ⟨hp, .mem, a, rfl⟩
  · exact .inr ⟨hrun, w, hw, .inl ⟨hq, rfl⟩⟩
  · obtain ⟨hp, p, a, rfl⟩ | hu := he.faults_or_keeps_faulted
    · exact .inl ⟨hp, p, a, by rw [advance_rewind]; rfl⟩
    · have hu : u.faulted = false := hu.trans hrun
      rw [if_neg (by simp [hu])]
      exact .inr ⟨hu, w, hw, .inr ⟨i, u, hd, he, hu, rfl⟩⟩

/-- Of the effects that are no `BoundsFault`, only the recovery of a stack error reports (R241, R242). -/
theorem Effect.reports_cases {i : Instr} {s u : State} (h : Effect i s u) (hf : u.faulted = false) :
    u.reports = s.reports ∨ ∃ r, u = (s.report r).jump 0 ∧
      (((∃ nnn, i = .call nnn) ∧ s.sp.val = 16 ∧ r = .stackOverflow) ∨ (i = .ret ∧ s.sp.val = 0 ∧ r = .stackUnderflow)) := by
  cases h with
  | boundsFault => cases hf
  | stackError r hi => exact .inr ⟨r, rfl, hi⟩
  | _ => exact .inl rfl

/-! ## The obligations -/

/-- Settles O12: the first of `pc`, `pc + 1` at or past the end is `pc`, or `pc + 1` where only that is (R60). -/
theorem fetchOutOfRangeFaults : Obligations.FetchOutOfRangeFaults := by
  intro s hrun hp hpc
  have hlow : max s.pc.toNat memSize = if 4096 ≤ s.pc.toNat then s.pc.toNat else s.pc.toNat + 1 := by
    rw [memSize]; split <;> omega
  rw [step_outOfRange hrun (fetch_faults hp (by rw [memSize]; omega)), hlow]
  rfl

/-- Settles O15: a step that completes ends with `FAULTED = 0`. -/
theorem boundsFaultIsPrecise : Obligations.BoundsFaultIsPrecise := by
  intro s t h hf
  obtain hfault | ⟨hrun, -⟩ := step_faults_or_completes h
  · exact hfault
  · cases hf.symm.trans hrun

/-- Settles O16: of the steps that complete, only one whose instruction meets a stack error reports. -/
theorem cycleReportsAtMostOneError : Obligations.CycleReportsAtMostOneError := by
  intro s t h
  obtain ⟨-, hfault⟩ | ⟨-, w, hw, ⟨-, rfl⟩ | ⟨i, u, hd, he, hu, rfl⟩⟩ := step_faults_or_completes h
  · exact .inr (.inl hfault)
  · exact .inl rfl
  · obtain hr | ⟨r, rfl, hi⟩ := he.reports_cases hu
    · exact .inl hr
    · refine .inr (.inr ⟨w, hw, rfl, rfl, rfl, ?_⟩)
      obtain ⟨⟨nnn, rfl⟩, hsp, rfl⟩ | ⟨rfl, hsp, rfl⟩ := hi
      · exact .inl ⟨nnn, hd, hsp, rfl⟩
      · exact .inr ⟨hd, hsp, rfl⟩

/-- Settles O17: a push on the full stack and a pop of the empty one fail, and the recovery is the report and the jump to 0. -/
theorem stackErrorsRecoverAtZero : Obligations.StackErrorsRecoverAtZero :=
  fun _ => ⟨execCall_full, execRet_empty⟩

end Sys2Proof.Proofs
end

section
/-! SUPPORT. Reset and load (spec 70_reset_and_hazards.md): the font in memory after a reset request, the zero values of
`RESET_REGS = zero`, and the ROM. -/

namespace Sys2Proof.Proofs

open Sys2Proof.Machine Sys2Proof.Statements

/-! ## Memory after a reset request (10_state.md R40, R47) -/

theorem fontBytes_eq_flatten (f : Font) : fontBytes f = f.flatten.toList := by
  have h : f.flatten.toList = ((f.toArray.map Vector.toArray).toList.map Array.toList).flatten := Array.toList_flatten
  rw [h, Array.toList_map, List.map_map]
  rfl

@[simp] theorem length_fontBytes (f : Font) : (fontBytes f).length = 80 := by
  rw [fontBytes_eq_flatten, Vector.length_toList]

/-- Row `r` of glyph `d` is byte `5 * d + r` of the font (R40). -/
theorem getElem_fontBytes (f : Font) (d : Fin 16) (r : Fin 5) (h : 5 * d.val + r.val < (fontBytes f).length) :
    (fontBytes f)[5 * d.val + r.val] = f[d][r] := by
  have hd : (5 * d.val + r.val) / 5 = d.val := by omega
  have hr : (5 * d.val + r.val) % 5 = r.val := by omega
  simp only [fontBytes_eq_flatten, Vector.getElem_toList, Vector.getElem_flatten, hd, hr, Fin.getElem_fin]

section
variable (s : State)

theorem memRead_resetRequest_font (d : Fin 16) (r : Fin 5) :
    s.resetRequest.memRead (0x50 + 5 * d.val + r.val) = s.cfg.font[d][r] := by
  have hlen : 5 * d.val + r.val < (fontBytes s.cfg.font).length := by rw [length_fontBytes]; omega
  have hread := read_writeFrom_inside wf_nil fontBase (fontBytes s.cfg.font) (by rw [length_fontBytes]; decide) _ hlen
  rw [getElem_fontBytes, ← Nat.add_assoc] at hread
  exact hread

theorem memRead_resetRequest_outside {a : Nat} (ha : a < 4096) (hout : a < 0x50 ∨ 0xA0 ≤ a) :
    s.resetRequest.memRead a = 0 := by
  have hread : s.resetRequest.memRead a = Memory.read [] (cellOf a) := by
    refine read_writeFrom_outside wf_nil fontBase (fontBytes s.cfg.font) _ fun k hk => ?_
    rw [length_fontBytes] at hk
    simp only [cellOf, memSize, fontBase]
    omega
  rw [hread, cellOf_of_lt ha]
  exact baseline_outside_font hout

/-! ## The other values under `RESET_REGS = zero` (D11) -/

/-- What the source gives no reset value then has the one of the default parameters. -/
theorem resetRequest_zero (h : s.cfg.resetRegs = .zero) :
    s.resetRequest = { State.reset with
      keys := s.keys, mem := s.resetRequest.mem, cfg := s.cfg, draws := s.draws + 1, generator := s.generator, reports := s.reports } := by
  simp only [State.resetRequest, State.afterReset, h]
  rfl

end

/-! ## The obligations -/

/-- Settles O19: memory is the font written over memory with no entry, and the rest is read off the reset sequence. -/
theorem resetSequenceForEveryParameter : Obligations.ResetSequenceForEveryParameter := by
  rintro s t rfl
  refine ⟨rfl, rfl, rfl, rfl, wf_writeFrom wf_nil _ _, memRead_resetRequest_font s,
    fun _ => memRead_resetRequest_outside s, fun hz => ?_⟩
  rw [resetRequest_zero s hz]
  exact ⟨reset_getV, rfl, rfl, rfl, reset_pixel⟩

/-- Settles O20: a ROM is a bulk write at 0x200, which ends inside memory exactly when it is let through (R272). -/
theorem romIsCopiedVerbatim : Obligations.RomIsCopiedVerbatim := by
  intro s rom hm
  refine ⟨fun hlen => ⟨_, if_pos hlen, bytesOnly_memWriteList hm loadAddr rom, ?_⟩, fun hlen => if_neg (Nat.not_le.mpr hlen)⟩
  exact memRead_memWriteList_inside hm loadAddr rom (by rw [memSize]; omega)

end Sys2Proof.Proofs
end
